-- ==== Sys2Proof/Word.lean ====
section
/-! DEFINITION. The bit-vector types of the block's words and registers (00_scope.md R6, R9, R11). -/

namespace Sys2Proof

/-- A command word `cmd[33:0]` (30_encoding.md R60). -/
abbrev CmdWord := BitVec 34
/-- A byte operand `B`, `HI` or `LO` (30_encoding.md R66). -/
abbrev Byte := BitVec 8
/-- The cycle count `C` of a TICK (30_encoding.md R64). -/
abbrev Cycles := BitVec 32
/-- The envelope period (10_state.md R21). -/
abbrev Period := BitVec 16
/-- A shape number 0..15 (10_state.md R22). -/
abbrev ShapeNo := BitVec 4
/-- A position 0..63 in a shape table (10_state.md R24). -/
abbrev Position := BitVec 6
/-- A logarithmic level 0..31, 31 the loudest (10_state.md R26). -/
abbrev Level := BitVec 5

end Sys2Proof
end

