-- ==== Sys2Proof/Syntax.lean ====
section
/-! DEFINITION. The commands of the block (30_encoding.md R61) and the assembler's source lines (R70, R71). -/

namespace Sys2Proof

/-- One constructor per row of spec/opcode_table.json. The ignored payload bits have no effect on any
state (30_encoding.md R67), so no constructor carries them. -/
inductive Instr where
  /-- NOP (R65, R80). -/
  | nop
  /-- SET_SHAPE B (R62, R81 to R84). -/
  | setShape (b : Byte)
  /-- SET_PERIOD HI, LO (R63, R85 to R87). -/
  | setPeriod (hi lo : Byte)
  /-- TICK C (R64, R100). -/
  | tick (c : Cycles)
deriving DecidableEq, Repr

/-- A source line of the assembler: a mnemonic with the numbers written in it, not yet checked against
their fields (30_encoding.md R70), or a pseudo-instruction (R71). -/
inductive Source where
  | nop
  | setShape (b : Nat)
  | setPeriod (hi lo : Nat)
  | tick (c : Nat)
  | setPeriod16 (p : Nat)
  | keepShape
  | frame (p b c : Nat)
deriving DecidableEq, Repr

end Sys2Proof
end

