-- ==== Sys2Proof/Decode.lean ====
section
/-! DEFINITION. The 34-bit command word: decoding, encoding, and the opcode table's rows
(30_encoding.md sections 1 to 3). -/

namespace Sys2Proof

/-- `OP = cmd[33:32]` (30_encoding.md R60). -/
def opOf (w : CmdWord) : BitVec 2 := w.extractLsb' 32 2

/-- The command a word stands for. Every 34-bit word is one (30_encoding.md R61 to R65, R67). -/
def decode (w : CmdWord) : Instr :=
  if opOf w = 0b00#2 then .nop
  else if opOf w = 0b01#2 then .setShape (w.extractLsb' 0 8)
  else if opOf w = 0b10#2 then .setPeriod (w.extractLsb' 8 8) (w.extractLsb' 0 8)
  else .tick (w.extractLsb' 0 32)

/-- The canonical word of a command, its ignored bits 0 (30_encoding.md R67), by the encodings of R70. -/
def encode : Instr → CmdWord
  | .nop => 0#34 <<< 32
  | .setShape b => 1#34 <<< 32 ||| b.setWidth 34
  | .setPeriod hi lo => 2#34 <<< 32 ||| hi.setWidth 34 <<< 8 ||| lo.setWidth 34
  | .tick c => 3#34 <<< 32 ||| c.setWidth 34

/-- The bits of `w` that its command reads: OP and the operand fields; every other bit is "ignored"
(30_encoding.md R62 to R65). -/
def usedBits (w : CmdWord) : CmdWord :=
  if opOf w = 0b00#2 then 0x300000000#34
  else if opOf w = 0b01#2 then 0x3000000FF#34
  else if opOf w = 0b10#2 then 0x30000FFFF#34
  else 0x3FFFFFFFF#34

/-- The word with its ignored bits cleared: the canonical encoding of its command (30_encoding.md R67). -/
def canonical (w : CmdWord) : CmdWord := w &&& usedBits w

/-- A row of spec/opcode_table.json: a word `w` belongs to it when `w &&& mask = pattern`. -/
structure OpcodeRow where
  mnemonic : String
  mask : CmdWord
  pattern : CmdWord
deriving DecidableEq, Repr

/-- The rows of spec/opcode_table.json, in its order. -/
def opcodeTable : List OpcodeRow :=
  [⟨"NOP", 0x300000000#34, 0x000000000#34⟩,
   ⟨"SET_SHAPE", 0x300000000#34, 0x100000000#34⟩,
   ⟨"SET_PERIOD", 0x300000000#34, 0x200000000#34⟩,
   ⟨"TICK", 0x300000000#34, 0x300000000#34⟩]

/-- The row a word belongs to by its mask and pattern. -/
def OpcodeRow.covers (r : OpcodeRow) (w : CmdWord) : Bool := w &&& r.mask == r.pattern

/-- The mnemonic of a command (30_encoding.md R61). -/
def Instr.mnemonic : Instr → String
  | .nop => "NOP"
  | .setShape _ => "SET_SHAPE"
  | .setPeriod _ _ => "SET_PERIOD"
  | .tick _ => "TICK"

/-- Why a string of bits is no command. -/
inductive DecodeError where
  /-- A bit above `cmd[33]` is set: the string is no 34-bit word. Raised by `decodeBits` only; safe
  (30_encoding.md R60: "There is no other length"). -/
  | widerThanCommandWord
deriving DecidableEq, Repr

/-- Decoding of any string of bits, given as a number with bit 0 the least significant: the command, or
the rejection by name of a string that is no 34-bit word (log entry 13). -/
def decodeBits (w : Nat) : Except DecodeError Instr :=
  if w < 2 ^ 34 then .ok (decode (BitVec.ofNat 34 w)) else .error .widerThanCommandWord

/-- The command read from the `nbits` bits `w`, every higher bit 0. -/
def decodeTableWord (nbits w : Nat) : Option Instr := (decodeBits (w % 2 ^ nbits)).toOption

end Sys2Proof
end

