-- ==== Sys2Proof/Config.lean ====
section
/-! DEFINITION. The implementation parameters the spec leaves open: the type of DIV and AMP_Q
(00_scope.md R7, R8), and the constants of which nothing is known (R10; 70_reset_and_hazards.md R162). -/

namespace Sys2Proof

/-- The parameters "a model takes as an argument" (93_implementation_defined.md I2, I3). They stand in
State as plain data that no step writes, so that every statement holds for each value of them
(log entries 1 and 2). -/
structure Params where
  /-- DIV, the chip-specific clock divider (00_scope.md R7). -/
  div : Nat
  /-- AMP_Q[0..31], the amplitude ROM (00_scope.md R8, 10_state.md R32). -/
  ampQ : Vector Nat 32
deriving DecidableEq, Repr

/-- FREE VALUE. LAT_CMD - 1: the clk cycles a NOP, SET_SHAPE or SET_PERIOD waits beyond the first
(00_scope.md R10: "LAT_CMD >= 1", implementation-defined; log entry 3). -/
opaque Config.waitCmd : Nat

/-- FREE VALUE. LAT_TICK(n) - 1: the same for a TICK of `n` advances (00_scope.md R10; log entry 3). -/
opaque Config.waitTick : Nat → Nat

/-- FREE VALUE. HOST_CYCLES_PER_TICK: the cycles the host gives its `k`-th TICK when the sample rate does
not divide the source clock (70_reset_and_hazards.md R162; log entry 12). -/
opaque Config.hostCyclesPerTick : (sourceClock sampleRate k : Nat) → Nat

end Sys2Proof
end

