-- ==== Sys2Proof/Machine/Rom.lean ====
section
/-! DEFINITION. The two constant ROMs: the shape ROM ENV (10_state.md R30, R31) and the amplitude ROM AMP
(R32 to R34), with the defaults of the open parameters. -/

namespace Sys2Proof.Machine

/-- The four base waveforms of 10_state.md R30. -/
inductive BaseWave where
  | rampUp | rampDown | holdHigh | holdLow
deriving DecidableEq, Repr

/-- Entry `j` (0..31) of a base waveform (10_state.md R30). -/
def BaseWave.entry : BaseWave → Nat → Level
  | .rampUp, j => BitVec.ofNat 5 j
  | .rampDown, j => BitVec.ofNat 5 (31 - j)
  | .holdHigh, _ => 31#5
  | .holdLow, _ => 0#5

/-- CONT = `s[3]` (10_state.md R31). -/
def contBit (s : ShapeNo) : Bool := s.getLsbD 3
/-- ATT = `s[2]` (10_state.md R31). -/
def attBit (s : ShapeNo) : Bool := s.getLsbD 2
/-- ALT = `s[1]` (10_state.md R31). -/
def altBit (s : ShapeNo) : Bool := s.getLsbD 1
/-- HOLD = `s[0]` (10_state.md R31). -/
def holdBit (s : ShapeNo) : Bool := s.getLsbD 0

/-- FIRST(s), the waveform of positions 0..31 (10_state.md R31). -/
def firstWave (s : ShapeNo) : BaseWave := if attBit s then .rampUp else .rampDown

/-- SECOND(s), the waveform of positions 32..63 (10_state.md R31). -/
def secondWave (s : ShapeNo) : BaseWave :=
  if contBit s then
    if holdBit s then (if attBit s ^^ altBit s then .holdHigh else .holdLow)
    else (if attBit s ^^ altBit s then .rampUp else .rampDown)
  else .holdLow

/-- ENV(s, i), the shape ROM (10_state.md R30). -/
def env (s : ShapeNo) (i : Position) : Level :=
  if i.toNat < 32 then (firstWave s).entry i.toNat else (secondWave s).entry (i.toNat - 32)

/-- AMP_ONE, the amplitude 1.0 with 16 fraction bits (00_scope.md R8). -/
def ampOne : Nat := 65536

/-- AMP(k) = AMP_Q[k] (10_state.md R32). -/
def amp (p : Params) (k : Level) : Nat := p.ampQ[k.toNat]'k.isLt

/-- `DIV` is positive (00_scope.md R7) and AMP_Q obeys the three laws of 10_state.md R33. -/
abbrev Lawful (p : Params) : Prop :=
  0 < p.div ∧ amp p 0#5 = 0 ∧ amp p 31#5 = ampOne ∧
    ∀ k : Fin 31, amp p (BitVec.ofNat 5 k) < amp p (BitVec.ofNat 5 (k + 1))

/-- The default AMP_Q of 10_state.md R34 (log entry 2). -/
def defaultAmpQ : Vector Nat 32 :=
  #v[0, 4915, 5358, 5841, 6368, 6942, 7568, 8250,
     8995, 9806, 10690, 11654, 12705, 13851, 15100, 16462,
     17947, 19565, 21329, 23253, 25350, 27636, 30129, 32846,
     35808, 39037, 42558, 46396, 50580, 55142, 60115, 65536]

/-- The spec's defaults: DIV = 8 (00_scope.md R7, log entry 1) and the table of 10_state.md R34. -/
def defaultParams : Params := ⟨8, defaultAmpQ⟩

end Sys2Proof.Machine
end

