-- ==== Sys2Proof/Machine/State.lean ====
section
/-! DEFINITION. The state of the block: its six registers (10_state.md R20), the handshake (R28, R40), the
input pins of the coming clock edges (log entry 4) and the fixed parameters (log entries 1 and 2). -/

namespace Sys2Proof.Machine

/-- Why a step stops with a fault. There is no such reason: "The block raises no exception and has no trap
mechanism" (60_exceptions.md R130; log entry 9). -/
inductive Fault where
deriving DecidableEq, Repr

/-- Why a step is refused. -/
inductive Refusal where
  /-- An arm of `exec` whose instruction has no meaning yet. Raised by no arm: every command has its
  meaning. Safe. -/
  | notModelled (mnemonic : String)
deriving DecidableEq, Repr

/-- The input pins as sampled at one rising edge of `clk` (10_state.md R40). -/
structure Pins where
  rst : Bool
  /-- `cmd_valid` -/
  valid : Bool
  cmd : CmdWord
deriving DecidableEq, Repr

/-- The pins of a host that asks for nothing. -/
def Pins.quiet : Pins := ⟨false, false, 0#34⟩

/-- A command accepted and not yet completed (10_state.md R40). -/
structure InFlight where
  /-- The word accepted. -/
  word : CmdWord
  /-- The rising edges that still pass before the one at which the command completes. -/
  wait : Nat
deriving DecidableEq, Repr

/-- The whole state. -/
structure State where
  /-- DIV and AMP_Q; no step writes them. -/
  params : Params
  /-- PERIOD (10_state.md R21). -/
  period : Period
  /-- SHAPE (10_state.md R22). -/
  shape : ShapeNo
  /-- LOOP, the looping-vs-clamping flag (10_state.md R23). -/
  loop : Bool
  /-- POS (10_state.md R24). -/
  pos : Position
  /-- ACC, the sub-cycle remainder (10_state.md R25), of the width DIV asks for (log entry 7). -/
  acc : Nat
  /-- LEVEL, which drives the output `level[4:0]` (10_state.md R26, R41). -/
  level : Level
  /-- The handshake of 10_state.md R40: the command in flight, none when the block is idle. -/
  flight : Option InFlight
  /-- The pins at the coming rising edges, soonest first; past its end they are quiet (log entry 4). -/
  pins : List Pins
deriving DecidableEq, Repr

/-- The machine right after reset (70_reset_and_hazards.md R150, R152), with the spec's default
parameters and nothing placed on the pins. -/
def State.reset : State where
  params := defaultParams
  period := 0#16
  shape := 0#4
  loop := false
  pos := 63#6
  acc := 0
  level := 0#5
  flight := none
  pins := []

end Sys2Proof.Machine
end

