-- ==== Sys2Proof/Machine/Flags.lean ====
section
/-! DEFINITION. The one flag of the block, LOOP (10_state.md R23). -/

namespace Sys2Proof.Machine

/-- `loop_of(s)`: CONT set and HOLD clear (10_state.md R23). -/
def loopOf (s : ShapeNo) : Bool := contBit s && !holdBit s

end Sys2Proof.Machine
end

