-- ==== Sys2Proof/Machine/Operands.lean ====
section
/-! DEFINITION. The operand forms: unsigned fields, assembled by the semantics (30_encoding.md R66). -/

namespace Sys2Proof.Machine

/-- SENTINEL, the all-ones byte (00_scope.md R6). -/
def sentinel : Byte := 0xFF#8

/-- The byte means "do not reset": the test is on the whole byte (40_configuration.md R81). -/
def isSentinel (b : Byte) : Bool := b == sentinel

/-- The shape number `B[3:0]` (40_configuration.md R83). -/
def shapeOf (b : Byte) : ShapeNo := b.extractLsb' 0 4

/-- `{HI, LO}` = HI * 256 + LO (40_configuration.md R85, 20_memory.md R51). -/
def periodOf (hi lo : Byte) : Period := hi ++ lo

end Sys2Proof.Machine
end

