-- ==== Sys2Proof/Machine/Ops.lean ====
section
/-! DEFINITION. The named operations the meanings and the step are made of: the register updates, the
arithmetic of TICK (41_tick.md), reset (70_reset_and_hazards.md R152) and the handshake (10_state.md R40).
The block has no memory (20_memory.md R50), and neither an exception entry nor a return
(60_exceptions.md R135): reset is its one abrupt event. -/

namespace Sys2Proof.Machine

/-! ### Register updates -/

/-- `PERIOD <- p`, and nothing else (40_configuration.md R86). -/
def State.setPeriod (s : State) (p : Period) : State := { s with period := p }

/-- The restart of a non-sentinel SET_SHAPE of shape `sh` (40_configuration.md R82). -/
def State.restart (s : State) (sh : ShapeNo) : State :=
  { s with shape := sh, loop := loopOf sh, pos := 0#6, acc := 0, level := env sh 0#6 }

/-- The three writes of a TICK: `ACC`, `POS`, `LEVEL` (41_tick.md R100). -/
def State.ticked (s : State) (acc : Nat) (pos : Position) (level : Level) : State :=
  { s with acc := acc, pos := pos, level := level }

/-! ### The arithmetic of TICK -/

/-- `S = max(PERIOD, 1) * DIV`, the step length (41_tick.md R101). -/
def stepLength (s : State) : Nat := max s.period.toNat 1 * s.params.div

/-- `t = ACC + C` (41_tick.md R102). -/
def totalCycles (s : State) (c : Cycles) : Nat := s.acc + c.toNat

/-- `n = (ACC + C) div S`, the advances a TICK makes (41_tick.md R102). -/
def advances (s : State) (c : Cycles) : Nat := totalCycles s c / stepLength s

/-- `adv(LOOP, p)`, one advance: the 6-bit wrap when looping, the clamp at 63 when holding
(41_tick.md R103). -/
def adv (loop : Bool) (p : Position) : Position :=
  if loop then BitVec.ofNat 6 ((p.toNat + 1) &&& 0x3F) else BitVec.ofNat 6 (min (p.toNat + 1) 63)

/-- The position after `n` advances, in closed form (41_tick.md R110). -/
def advBy (loop : Bool) (p : Position) (n : Nat) : Position :=
  if loop then BitVec.ofNat 6 ((p.toNat + n) &&& 0x3F) else BitVec.ofNat 6 (min (p.toNat + n) 63)

/-- `AMP(ENV(s, p))`, the linear amplitude of a position. -/
def ampAt (p : Params) (sh : ShapeNo) (pos : Position) : Nat := amp p (env sh pos)

/-- `f 0 + ... + f (k - 1)`. -/
def sumBelow (f : Nat → Nat) : Nat → Nat
  | 0 => 0
  | k + 1 => sumBelow f k + f k

/-- `F(s)`, the sum over one whole table (41_tick.md R110). -/
def tableSum (p : Params) (sh : ShapeNo) : Nat := sumBelow (fun j => ampAt p sh (BitVec.ofNat 6 j)) 64

/-- The sum of a looping shape's `n` samples (41_tick.md R110, `LOOP = 1`). -/
def loopingSum (p : Params) (sh : ShapeNo) (pos : Position) (n : Nat) : Nat :=
  n / 64 * tableSum p sh
    + sumBelow (fun j => ampAt p sh (BitVec.ofNat 6 ((pos.toNat + j) &&& 0x3F))) (n % 64)

/-- The sum of a holding shape's `n` samples: the positions up to 63 in turn, then 63 again and again
(41_tick.md R110, `LOOP = 0`). -/
def holdingSum (p : Params) (sh : ShapeNo) (pos : Position) (n : Nat) : Nat :=
  sumBelow (fun j => ampAt p sh (BitVec.ofNat 6 (pos.toNat + j))) (min n (64 - pos.toNat))
    + (n - min n (64 - pos.toNat)) * ampAt p sh 63#6

/-- The sum of the amplitudes of the `n` positions a TICK leaves, in closed form (41_tick.md R104, R110). -/
def sampleSum (p : Params) (sh : ShapeNo) (loop : Bool) (pos : Position) (n : Nat) : Nat :=
  if loop then loopingSum p sh pos n else holdingSum p sh pos n

/-- `nearest_ge(sum, n)`, the least level `k` with `n * AMP(k) >= sum` (41_tick.md R107). -/
def nearestGe (p : Params) (sum n : Nat) : Level :=
  BitVec.ofNat 5 (((List.range 32).find? fun k => decide (sum ≤ n * amp p (BitVec.ofNat 5 k))).getD 31)

/-- The level of a TICK of `n` advances that starts at `pos`: the current position's level when there is
no advance, else the mean linear amplitude back to a level (41_tick.md R105). -/
def resample (p : Params) (sh : ShapeNo) (loop : Bool) (pos : Position) (n : Nat) : Level :=
  if n = 0 then env sh pos else nearestGe p (sampleSum p sh loop pos n) n

/-! ### Reset, the pins and the handshake -/

/-- The pins at this rising edge. -/
def State.pinsNow (s : State) : Pins := s.pins.headD Pins.quiet

/-- The clock moves on: the pins of this edge are behind. -/
def State.nextEdge (s : State) : State := { s with pins := s.pins.tail }

/-- A reset edge: every register takes its value from 70_reset_and_hazards.md R150 and a command in flight
is abandoned (R152); the ROMs are not affected (R153). -/
def State.applyReset (s : State) : State :=
  { s with
    period := State.reset.period, shape := State.reset.shape, loop := State.reset.loop,
    pos := State.reset.pos, acc := State.reset.acc, level := State.reset.level, flight := none }

/-- Output `cmd_ready`: 0 from acceptance to completion (10_state.md R40; log entry 15) and while `rst = 1`
(70_reset_and_hazards.md R152). -/
def State.cmdReady (s : State) : Bool := !s.pinsNow.rst && s.flight.isNone

/-- The latency of a command in clk cycles less one: LAT_CMD - 1, or LAT_TICK(n) - 1 for a TICK of `n`
advances (00_scope.md R10). -/
def waitOf (i : Instr) (s : State) : Nat :=
  match i with
  | .nop => Config.waitCmd
  | .setShape _ => Config.waitCmd
  | .setPeriod _ _ => Config.waitCmd
  | .tick c => Config.waitTick (advances s c)

/-- The block accepts a word: it is in flight for its command's latency (10_state.md R40). -/
def State.accept (s : State) (w : CmdWord) : State :=
  { s with flight := some ⟨w, waitOf (decode w) s⟩ }

/-- The command in flight waits for `k` further edges. -/
def State.await (s : State) (w : CmdWord) (k : Nat) : State := { s with flight := some ⟨w, k⟩ }

/-- The command in flight leaves the handshake: `cmd_ready` returns to 1 (10_state.md R40). -/
def State.release (s : State) : State := { s with flight := none }

/-- What a rising edge comes to: a state reached without a command completing, or a command that takes its
effect on a state. -/
inductive EdgeEvent where
  | settles (t : State)
  | runs (i : Instr) (t : State)
deriving DecidableEq, Repr

/-- One rising edge up to the effect of a completing command: reset wins (60_exceptions.md R134); an idle
block accepts a valid command (10_state.md R40) or stays as it is (60_exceptions.md R143); a command in flight
waits out its latency and then takes its whole effect at once (20_memory.md R53; log entry 15). -/
def State.edge (s : State) : EdgeEvent :=
  if s.pinsNow.rst then .settles s.nextEdge.applyReset
  else
    match s.flight with
    | none => .settles (if s.pinsNow.valid then s.nextEdge.accept s.pinsNow.cmd else s.nextEdge)
    | some ⟨w, 0⟩ => .runs (decode w) s.nextEdge.release
    | some ⟨w, k + 1⟩ => .settles (s.nextEdge.await w k)

/-- A command word stored where the next step runs it: accepted, its last edge the coming one, at which
the host asks for nothing and does not reset. -/
def State.placeWord (s : State) (w : CmdWord) : State :=
  { s with flight := some ⟨w, 0⟩, pins := Pins.quiet :: s.pins }

end Sys2Proof.Machine
end

