-- ==== Sys2Proof/Machine/Configuration.lean ====
section
/-! DEFINITION. The configuration commands NOP, SET_SHAPE and SET_PERIOD (40_configuration.md). -/

namespace Sys2Proof.Machine

/-- NOP: no register changes (40_configuration.md R80). -/
def execNop (s : State) : Host.Outcome State Fault Refusal := .next s

/-- SET_SHAPE B: the sentinel changes nothing (40_configuration.md R81); any other byte loads the shape
`B[3:0]` and restarts the envelope (R82 to R84). -/
def execSetShape (b : Byte) (s : State) : Host.Outcome State Fault Refusal :=
  .next (if isSentinel b then s else s.restart (shapeOf b))

/-- SET_PERIOD HI, LO: stores the period (40_configuration.md R85, R86). -/
def execSetPeriod (hi lo : Byte) (s : State) : Host.Outcome State Fault Refusal :=
  .next (s.setPeriod (periodOf hi lo))

end Sys2Proof.Machine
end

