-- ==== Sys2Proof/Machine/Tick.lean ====
section
/-! DEFINITION. TICK, the one computing command (41_tick.md R100). -/

namespace Sys2Proof.Machine

/-- TICK C: `n` advances, the remainder kept, the level resampled (41_tick.md R100), with the closed form
of R110 in place of R100's loop: "a model must not iterate one advance at a time without bound". -/
def execTick (c : Cycles) (s : State) : Host.Outcome State Fault Refusal :=
  .next (s.ticked (totalCycles s c % stepLength s)
    (advBy s.loop s.pos (advances s c))
    (resample s.params s.shape s.loop s.pos (advances s c)))

end Sys2Proof.Machine
end

