-- ==== Sys2Proof/Machine/Dispatch.lean ====
section
/-! DEFINITION. The dispatch: one arm per command, each one direct call of its meaning. -/

namespace Sys2Proof.Machine

def exec (i : Instr) (s : State) : Host.Outcome State Fault Refusal :=
  match i with
  | .nop => Sys2Proof.Machine.execNop s
  | .setShape b => Sys2Proof.Machine.execSetShape b s
  | .setPeriod hi lo => Sys2Proof.Machine.execSetPeriod hi lo s
  | .tick c => Sys2Proof.Machine.execTick c s

end Sys2Proof.Machine
end

