-- ==== Sys2Proof/Machine/Step.lean ====
section
/-! DEFINITION. One step is one rising edge of `clk` (10_state.md R40, 70_reset_and_hazards.md R152;
log entry 3). -/

namespace Sys2Proof.Machine

/-- One rising edge of `clk`; a command that completes at it is run by `exec`. -/
def step (s : State) : Host.Outcome State Fault Refusal :=
  match s.edge with
  | .settles t => .next t
  | .runs i t => exec i t

/-- `s` with the word of bits `w` where the next step runs it (log entry 5). -/
def State.withFetchWord (s : State) (nbits w : Nat) : State :=
  s.placeWord (BitVec.ofNat 34 (w % 2 ^ nbits))

end Sys2Proof.Machine
end

