-- ==== Sys2Proof/WellFormed.lean ====
section
/-! DEFINITION. Well-formed source lines: "Each operand must fit its field, or the assembler rejects the
line" (30_encoding.md R70). A term of `Instr` needs no check: its operands have the fields' own widths. -/

namespace Sys2Proof

/-- The operand fits a field of `n` bits. -/
abbrev fits (n v : Nat) : Bool := decide (v < 2 ^ n)

/-- Every operand of the line fits its field (30_encoding.md R70, R71). -/
def Source.wellFormed : Source → Bool
  | .nop => true
  | .setShape b => fits 8 b
  | .setPeriod hi lo => fits 8 hi && fits 8 lo
  | .tick c => fits 32 c
  | .setPeriod16 p => fits 16 p
  | .keepShape => true
  | .frame p b c => fits 16 p && fits 8 b && fits 32 c

end Sys2Proof
end

