-- ==== Sys2Proof/Machine/Assembler.lean ====
section
/-! DEFINITION. The assembler: source lines, their expansion and their words (30_encoding.md R70, R71). Text
is a list of characters (log entry 14). -/

namespace Sys2Proof.Machine

/-- The commands a line stands for; a pseudo-instruction "means exactly its expansion, executed in order"
(30_encoding.md R71). Meant for well-formed lines, whose numbers fit. -/
def expand : Source → List Instr
  | .nop => [.nop]
  | .setShape b => [.setShape (BitVec.ofNat 8 b)]
  | .setPeriod hi lo => [.setPeriod (BitVec.ofNat 8 hi) (BitVec.ofNat 8 lo)]
  | .tick c => [.tick (BitVec.ofNat 32 c)]
  | .setPeriod16 p => [.setPeriod (BitVec.ofNat 8 (p / 256)) (BitVec.ofNat 8 (p % 256))]
  | .keepShape => [.setShape 0xFF#8]
  | .frame p b c =>
    [.setPeriod (BitVec.ofNat 8 (p / 256)) (BitVec.ofNat 8 (p % 256)),
     .setShape (BitVec.ofNat 8 b), .tick (BitVec.ofNat 32 c)]

/-- The words of a line; none when the assembler rejects it (30_encoding.md R70). -/
def assemble (l : Source) : Option (List CmdWord) :=
  if l.wellFormed then some ((expand l).map encode) else none

/-- Why the assembler rejects a line of text. -/
inductive AsmError where
  /-- The first word is no mnemonic of 30_encoding.md R70 or R71. Raised by `parseLine`; safe. -/
  | unknownMnemonic
  /-- The operands are not comma-separated numbers. Raised by `parseLine`; safe. -/
  | badOperand
  /-- The mnemonic takes another number of operands. Raised by `parseLine`; safe. -/
  | operandCount
  /-- An operand does not fit its field. Raised by `assembleLine`; safe. -/
  | operandTooLarge
deriving DecidableEq, Repr

/-- A line without its comment, from `;` to the end of the line (30_encoding.md R70). -/
def stripComment (l : List Char) : List Char := l.takeWhile (· != ';')

/-- The word collected so far (last character first), if any, before the tokens that follow. -/
def flushWord (word : List Char) (rest : List (List Char)) : List (List Char) :=
  if word.isEmpty then rest else word.reverse :: rest

/-- The tokens of a line: words, and commas as tokens of their own. -/
def tokens (word : List Char) : List Char → List (List Char)
  | [] => flushWord word []
  | c :: cs =>
    if c = ' ' || c = '\t' then flushWord word (tokens [] cs)
    else if c = ',' then flushWord word ([','] :: tokens [] cs)
    else tokens (c :: word) cs

/-- The operand tokens of a comma-separated list, none where commas and operands do not alternate. -/
def operandTokens : List (List Char) → Option (List (List Char))
  | [] => some []
  | [a] => if a = [','] then none else some [a]
  | a :: b :: rest =>
    if a = [','] || b ≠ [','] || rest.isEmpty then none else (operandTokens rest).map (a :: ·)

/-- The value of a digit in a base up to 16. -/
def digitValue (base : Nat) (c : Char) : Option Nat :=
  let v :=
    if '0' ≤ c ∧ c ≤ '9' then c.toNat - 48
    else if 'A' ≤ c ∧ c ≤ 'F' then c.toNat - 55
    else if 'a' ≤ c ∧ c ≤ 'f' then c.toNat - 87
    else 16
  if v < base then some v else none

/-- The number a non-empty string of digits writes, after the value `acc` of the digits before. -/
def digitsValue (base acc : Nat) : List Char → Option Nat
  | [] => some acc
  | c :: cs => (digitValue base c).bind fun d => digitsValue base (acc * base + d) cs

/-- An unsigned number, "in decimal or as `0x` hex" (30_encoding.md R70). -/
def number : List Char → Option Nat
  | [] => none
  | ['0', 'x'] => none
  | '0' :: 'x' :: ds => digitsValue 16 0 ds
  | ds => digitsValue 10 0 ds

/-- A mnemonic of 30_encoding.md R70 or R71, in upper case, with its operands. -/
def sourceOf (mnemonic : List Char) (ops : List Nat) : Except AsmError Source :=
  if mnemonic = ['N', 'O', 'P'] then
    match ops with
    | [] => .ok .nop
    | _ => .error .operandCount
  else if mnemonic = ['S', 'E', 'T', '_', 'S', 'H', 'A', 'P', 'E'] then
    match ops with
    | [b] => .ok (.setShape b)
    | _ => .error .operandCount
  else if mnemonic = ['S', 'E', 'T', '_', 'P', 'E', 'R', 'I', 'O', 'D'] then
    match ops with
    | [hi, lo] => .ok (.setPeriod hi lo)
    | _ => .error .operandCount
  else if mnemonic = ['T', 'I', 'C', 'K'] then
    match ops with
    | [c] => .ok (.tick c)
    | _ => .error .operandCount
  else if mnemonic = ['S', 'E', 'T', '_', 'P', 'E', 'R', 'I', 'O', 'D', '1', '6'] then
    match ops with
    | [p] => .ok (.setPeriod16 p)
    | _ => .error .operandCount
  else if mnemonic = ['K', 'E', 'E', 'P', '_', 'S', 'H', 'A', 'P', 'E'] then
    match ops with
    | [] => .ok .keepShape
    | _ => .error .operandCount
  else if mnemonic = ['F', 'R', 'A', 'M', 'E'] then
    match ops with
    | [p, b, c] => .ok (.frame p b c)
    | _ => .error .operandCount
  else .error .unknownMnemonic

/-- The source line of one line of text, none for a blank or comment line. -/
def parseLine (l : List Char) : Except AsmError (Option Source) :=
  match tokens [] (stripComment l) with
  | [] => .ok none
  | m :: rest =>
    match (operandTokens rest).bind (·.mapM number) with
    | none => .error .badOperand
    | some ops => (sourceOf m ops).map some

/-- The words of one line of text (30_encoding.md R70). -/
def assembleLine (l : List Char) : Except AsmError (List CmdWord) :=
  match parseLine l with
  | .error e => .error e
  | .ok none => .ok []
  | .ok (some src) =>
    match assemble src with
    | none => .error .operandTooLarge
    | some ws => .ok ws

/-- The words of a source text, line after line. DESIGN CHOICE (log entry 14): when a line is rejected the whole
text has no words, and the answer is the first rejected line's error; 30_encoding.md R70 says only that the
assembler rejects the line. -/
def assembleText : List (List Char) → Except AsmError (List CmdWord)
  | [] => .ok []
  | l :: ls => (assembleLine l).bind fun ws => (assembleText ls).map (ws ++ ·)

end Sys2Proof.Machine
end

