-- ==== Sys2Proof/Machine/Program.lean ====
section
/-! DEFINITION. Command sequences, at the two grains the spec speaks of: whole commands in acceptance order
(20_memory.md R54), and clock edges with the words on the pins (10_state.md R40). -/

namespace Sys2Proof.Machine

/-- A command sequence as atomic transitions, each reading the state the one before left
(20_memory.md R53, R54). -/
def runCommands : List Instr → State → Host.Outcome State Fault Refusal
  | [], s => .next s
  | i :: is, s =>
    match exec i s with
    | .next t => runCommands is t
    | .fault r => .fault r
    | .refused r => .refused r

/-- The output `level` after each command of a sequence, in order (10_state.md R41). -/
def levelsAfter : List Instr → State → List Level
  | [], _ => []
  | i :: is, s =>
    match exec i s with
    | .next t => t.level :: levelsAfter is t
    | .fault _ => []
    | .refused _ => []

/-- `k` rising edges of `clk`. -/
def runEdges : Nat → State → Host.Outcome State Fault Refusal
  | 0, s => .next s
  | k + 1, s =>
    match step s with
    | .next t => runEdges k t
    | .fault r => .fault r
    | .refused r => .refused r

/-- The pins of a host that presents the word `w`. -/
def Pins.present (w : CmdWord) : Pins := ⟨false, true, w⟩

/-- The pins by which a host has one command run from an idle block: its word, presented at one edge, then
quiet pins for the command's latency (10_state.md R40, 00_scope.md R10). -/
def commandPins (i : Instr) (s : State) : List Pins :=
  Pins.present (encode i) :: List.replicate (waitOf i s + 1) Pins.quiet

/-- The pins by which a host has a whole command sequence run from an idle block. -/
def programPins : List Instr → State → List Pins
  | [], _ => []
  | i :: is, s =>
    commandPins i s ++
      (match exec i s with
       | .next t => programPins is t
       | .fault _ => []
       | .refused _ => [])

end Sys2Proof.Machine
end

