-- ==== Sys2Proof/Machine/Protocol.lean ====
section
/-! DEFINITION. The host's obligations when it drives the block (70_reset_and_hazards.md section 3,
10_state.md R40). They bind the host, not the block: no step depends on this file. -/

namespace Sys2Proof.Machine

/-- "While `cmd_valid = 1` and `cmd_ready = 0`, the host holds `cmd` unchanged" (10_state.md R40), at the
coming edge and the one after. DESIGN CHOICE (log entry 17): the rule speaks of `cmd` alone; this predicate asks
that the host does not withdraw `cmd_valid` either, at reset edges as at any other. -/
def holdsCommand (s : State) : Bool :=
  !(s.pinsNow.valid && !s.cmdReady)
    || (s.nextEdge.pinsNow.valid && s.nextEdge.pinsNow.cmd == s.pinsNow.cmd)

/-! ### Reading `level` (70_reset_and_hazards.md R161 step 4, R170) -/

/-- The command is a TICK, whose result the host reads. -/
def isTick : Instr → Bool
  | .nop => false
  | .setShape _ => false
  | .setPeriod _ _ => false
  | .tick _ => true

/-- Whether the last command accepted is a TICK that no reset has abandoned, after the edge of `s`, given the
same before it. The host knows it from its own pins and `cmd_ready`: a reset edge abandons the TICK
(70_reset_and_hazards.md R152), an acceptance (10_state.md R40) puts another command in its place. -/
def tickAwaited (awaited : Bool) (s : State) : Bool :=
  if s.pinsNow.rst then false
  else if s.cmdReady && s.pinsNow.valid then isTick (decode s.pinsNow.cmd)
  else awaited

/-- The host may take `level` as the result of the TICK it awaits: "until `cmd_ready` is 1 again after the
TICK's acceptance" it must not (70_reset_and_hazards.md R170). -/
def levelIsResult (awaited : Bool) (s : State) : Bool := awaited && s.cmdReady

/-- What the host reads over `k` edges: `level`, each time it becomes an awaited TICK's result
(70_reset_and_hazards.md R161 step 4, R170). -/
def readResults : Nat → Bool → State → List Level
  | 0, _, _ => []
  | k + 1, awaited, s =>
    match step s with
    | .next t =>
      (if !levelIsResult awaited s && levelIsResult (tickAwaited awaited s) t then [t.level] else [])
        ++ readResults k (tickAwaited awaited s) t
    | .fault _ => []
    | .refused _ => []

/-- The level read after each TICK of a command sequence, in order (70_reset_and_hazards.md R161 step 4). -/
def tickLevels : List Instr → State → List Level
  | [], _ => []
  | i :: is, s =>
    match exec i s with
    | .next t => (if isTick i then [t.level] else []) ++ tickLevels is t
    | .fault _ => []
    | .refused _ => []

/-! ### The frames of a song -/

/-- What a frame says of one tone channel: its envelope-enable flag, its tone-mixer bit, its 4-bit volume
(70_reset_and_hazards.md R161, R166). -/
structure Channel where
  envelopeEnabled : Bool
  toneBit : Bool
  volume : BitVec 4
deriving DecidableEq, Repr

/-- One source frame: the envelope registers the host reads, period coarse and fine, and shape
(70_reset_and_hazards.md R161), and the three tone channels (60_exceptions.md R139). -/
structure Frame where
  hi : Byte
  lo : Byte
  b : Byte
  channels : Vector Channel 3
deriving DecidableEq, Repr

/-- What the host is set up with (70_reset_and_hazards.md R162 to R165). -/
structure HostSetup where
  /-- Source-chip clock in Hz. -/
  sourceClock : Nat
  /-- Envelope sample rate in Hz. -/
  sampleRate : Nat
  /-- The option that disables envelope emulation is off. -/
  emulation : Bool
deriving DecidableEq, Repr

/-- Why the host issues no command, or has no value. -/
inductive HostStop where
  /-- "envelope sample rate requested not divisible by 50" (70_reset_and_hazards.md R164). Raised by
  `hostProgram`; safe. -/
  | rateNotMultipleOf50
  /-- A sample rate of 0, which no `m >= 1` gives (70_reset_and_hazards.md R163; log entry 12). Raised by
  `hostProgram`; safe. -/
  | rateZero
  /-- A cycle count that no TICK holds (30_encoding.md R64). Raised by `tickCommand`; safe. -/
  | cyclesTooLarge
  /-- The volume of an envelope-enabled channel with the emulation disabled, which the document does not
  say (70_reset_and_hazards.md R165). Raised by `channelSample`; safe. -/
  | emulationDisabled
deriving DecidableEq, Repr

/-- `m`, the TICKs of one 50 Hz frame (70_reset_and_hazards.md R163). -/
def ticksPerFrame (h : HostSetup) : Nat := h.sampleRate / 50

/-- The cycles of the `k`-th TICK of a song: `source_clock / sample_rate` when that is whole, else as the
host rounds it (70_reset_and_hazards.md R162; log entry 12). -/
def cyclesOf (h : HostSetup) (k : Nat) : Nat :=
  if h.sourceClock % h.sampleRate = 0 then h.sourceClock / h.sampleRate
  else Config.hostCyclesPerTick h.sourceClock h.sampleRate k

/-- The TICK of `c` cycles. -/
def tickCommand (c : Nat) : Except HostStop Instr :=
  if c < 2 ^ 32 then .ok (.tick (BitVec.ofNat 32 c)) else .error .cyclesTooLarge

/-- `m` TICKs, the first of them the song's `k`-th. -/
def tickCommands (h : HostSetup) (k : Nat) : Nat → Except HostStop (List Instr)
  | 0 => .ok []
  | m + 1 => (tickCommand (cyclesOf h k)).bind fun t => (tickCommands h (k + 1) m).map (t :: ·)

/-- The commands of one frame: SET_PERIOD, SET_SHAPE with the sentinel passed through, then the frame's
TICKs (70_reset_and_hazards.md R161, R163). -/
def frameCommands (h : HostSetup) (k : Nat) (f : Frame) : Except HostStop (List Instr) :=
  (tickCommands h k (ticksPerFrame h)).map fun ts => .setPeriod f.hi f.lo :: .setShape f.b :: ts

/-- The commands of a song's frames, in order (70_reset_and_hazards.md R160), `k` TICKs being issued. -/
def songCommands (h : HostSetup) (k : Nat) : List Frame → Except HostStop (List Instr)
  | [] => .ok []
  | f :: fs =>
    (frameCommands h k f).bind fun is => (songCommands h (k + ticksPerFrame h) fs).map (is ++ ·)

/-- What the host issues for a song. A rate that 50 does not divide stops it before any command
(70_reset_and_hazards.md R164), with the emulation disabled too: R164 makes no exception, so the rate is checked
first (DEDUCED, log entry 12). With the emulation disabled it issues nothing (R165). -/
def hostProgram (h : HostSetup) (fs : List Frame) : Except HostStop (List Instr) :=
  if h.sampleRate % 50 ≠ 0 then .error .rateNotMultipleOf50
  else if !h.emulation then .ok []
  else if h.sampleRate = 0 then .error .rateZero
  else songCommands h 0 fs

/-! ### What the host makes of `level` -/

/-- A 4-bit volume as 5 bits, "by replicating the low bit": `{v[3:0], v[0]}` (70_reset_and_hazards.md R166). -/
def widenVolume (v : BitVec 4) : BitVec 5 := v ++ v.extractLsb' 0 1

/-- The tone-mixer bit as the host treats it: as if set where the envelope bit is set
(70_reset_and_hazards.md R166). -/
def toneMixerBit (c : Channel) : Bool := c.envelopeEnabled || c.toneBit

/-- A channel at one output sample: its 5-bit volume and its effective tone-mixer bit. -/
structure ChannelSample where
  volume : BitVec 5
  tone : Bool
deriving DecidableEq, Repr

/-- A channel at one output sample: an envelope-enabled channel takes the level read, every other its own
volume (70_reset_and_hazards.md R161 step 4, R166; 60_exceptions.md R139). No level is read with the emulation
disabled, and what an envelope-enabled channel then takes is not said (R165). -/
def channelSample (level : Option Level) (c : Channel) : Except HostStop ChannelSample :=
  if c.envelopeEnabled then
    match level with
    | some l => .ok ⟨l, toneMixerBit c⟩
    | none => .error .emulationDisabled
  else .ok ⟨widenVolume c.volume, toneMixerBit c⟩

/-- The three channels of a frame at one output sample: one level serves them all (60_exceptions.md R139). -/
def frameSample (level : Option Level) (f : Frame) : Vector (Except HostStop ChannelSample) 3 :=
  f.channels.map (channelSample level)

/-- The output samples of a song played on the block from state `s`: after each TICK the host reads `level`
and uses it for the channels of that TICK's frame (70_reset_and_hazards.md R161 step 4, R163). DESIGN CHOICE (log
entry 12): with the emulation disabled a frame has `sampleRate / 50` samples, none at the rate 0; the spec gives
samples only for TICKs and says of that case only that the host does not use the block (R165). -/
def songSamples (h : HostSetup) (fs : List Frame) (s : State) :
    Except HostStop (List (Vector (Except HostStop ChannelSample) 3)) :=
  (hostProgram h fs).map fun is =>
    List.zipWith frameSample
      (if h.emulation then (tickLevels is s).map some
       else List.replicate (fs.length * ticksPerFrame h) none)
      (fs.flatMap fun f => List.replicate (ticksPerFrame h) f)

end Sys2Proof.Machine
end

