-- ==== Sys2Proof/Machine/Reference.lean ====
section
/-! DEFINITION. TICK as its rules tell it, advance by advance (41_tick.md R100, R104) and cycle by cycle
(R112): the clear forms that the closed form of `execTick` is held against. No step runs them. -/

namespace Sys2Proof.Machine

/-- The body of R100's `repeat`, `n` times: from (sum, p), add the amplitude of the position being left
and advance. -/
def repeatAdvance (p : Params) (sh : ShapeNo) (loop : Bool) : Nat → Nat × Position → Nat × Position
  | 0, a => a
  | n + 1, a => repeatAdvance p sh loop n (a.1 + ampAt p sh a.2, adv loop a.2)

/-- The state R100's pseudocode leaves, statement by statement. -/
def tickByLoop (c : Cycles) (s : State) : State :=
  let n := (s.acc + c.toNat) / stepLength s
  let a := repeatAdvance s.params s.shape s.loop n (0, s.pos)
  { s with
    acc := (s.acc + c.toNat) % stepLength s
    pos := a.2
    level := if n = 0 then env s.shape a.2 else nearestGe s.params a.1 n }

/-- `p_0, ..., p_(n-1)`: the positions `n` advances from `p` leave (41_tick.md R104). -/
def positionsLeft (loop : Bool) : Nat → Position → List Position
  | 0, _ => []
  | n + 1, p => p :: positionsLeft loop n (adv loop p)

/-- The levels a TICK of `n` advances samples, in order (41_tick.md R104). -/
def samples (s : State) (n : Nat) : List Level := (positionsLeft s.loop n s.pos).map (env s.shape)

/-- What the cycle-by-cycle view of 41_tick.md R112 follows: ACC, POS and the samples taken so far. -/
structure CycleView where
  acc : Nat
  pos : Position
  taken : List Level
deriving DecidableEq, Repr

/-- One single-cycle step of 41_tick.md R112 with step length `len`. -/
def cycleStep (len : Nat) (sh : ShapeNo) (loop : Bool) (v : CycleView) : CycleView :=
  if v.acc + 1 = len then ⟨0, adv loop v.pos, v.taken ++ [env sh v.pos]⟩
  else ⟨v.acc + 1, v.pos, v.taken⟩

/-- `k` single-cycle steps of 41_tick.md R112. -/
def cycleSteps (len : Nat) (sh : ShapeNo) (loop : Bool) : Nat → CycleView → CycleView
  | 0, v => v
  | k + 1, v => cycleSteps len sh loop k (cycleStep len sh loop v)

end Sys2Proof.Machine
end

