-- ==== Sys2Proof/Safety.lean ====
section
/-! DEFINITION. What counts as a safe state: the invariants the spec gives the registers. -/

namespace Sys2Proof.Machine

/-- The parameters are lawful (00_scope.md R7, 10_state.md R33), `LOOP = loop_of(SHAPE)` (R23), and ACC is
in its range 0 .. 65535 * DIV - 1 (R20, R25). The other registers' ranges are their widths. -/
abbrev Inv (s : State) : Prop :=
  Lawful s.params ∧ s.loop = loopOf s.shape ∧ s.acc < 65535 * s.params.div

end Sys2Proof.Machine
end

