-- ==== Sys2Proof/Certificates/Slice0/Obligations.lean ====
section
/-! DEFINITION. The statements for the provers. Where the spec marks a clause as its own decision (D<n> of
92_eei_decisions.md), as derived, or as general knowledge, the docstring says so and names the rule. -/

open Sys2Proof Sys2Proof.Machine

/-! ### Encoding -/

/-- 30_encoding.md R60 to R65 (the spec's own decision D3): the ten words X1 to X10 of 95_test_vectors.md
decode to the commands that file names. -/
def Obligations.SpecWordsDecodeAsWritten : Prop :=
  decode 0x000000000#34 = .nop ∧ decode 0x0FFFFFFFF#34 = .nop ∧
  decode 0x10000000D#34 = .setShape 0x0D#8 ∧ decode 0x1FFFFFF0D#34 = .setShape 0x0D#8 ∧
  decode 0x1000000FF#34 = .setShape 0xFF#8 ∧
  decode 0x200000100#34 = .setPeriod 0x01#8 0x00#8 ∧ decode 0x2ABCD1234#34 = .setPeriod 0x12#8 0x34#8 ∧
  decode 0x300009C40#34 = .tick 40000#32 ∧ decode 0x3FFFFFFFF#34 = .tick 4294967295#32 ∧
  decode 0x300000000#34 = .tick 0#32

/-- Decode and encode agree, in both directions: every command is read back from its word, every word
encodes back to itself but for its ignored bits, and two words are one command exactly when they agree on
the bits that are not ignored (30_encoding.md R60 to R67, the spec's own decisions D3, D4). -/
def Obligations.DecodeAndEncodeAgree : Prop :=
  (∀ i : Instr, decode (encode i) = i ∧
    ∀ nbits : Nat, 34 ≤ nbits → decodeTableWord nbits (encode i).toNat = some i) ∧
  (∀ w : CmdWord, encode (decode w) = canonical w) ∧
  (∀ w w' : CmdWord, decode w = decode w' ↔ canonical w = canonical w')

/-- Every word belongs to exactly one row of spec/opcode_table.json, the row of the command it decodes to
(30_encoding.md R61, the spec's own decision D3). -/
def Obligations.EveryWordBelongsToOneRow : Prop :=
  ∀ w : CmdWord, (opcodeTable.filter (·.covers w)).map (·.mnemonic) = [(decode w).mnemonic]

/-- 30_encoding.md R67 (the spec's own decision D4): every word is a valid command and none traps, the
ignored bits have no effect on any state, and the canonical encoding has them 0. -/
def Obligations.EveryWordIsACommand : Prop :=
  (∀ (w : CmdWord) (s : State), ∃ t, exec (decode w) s = .next t ∧
    ∀ w' : CmdWord, w' &&& usedBits w = w &&& usedBits w → exec (decode w') s = .next t) ∧
  (∀ i : Instr, encode i &&& ~~~ usedBits (encode i) = 0#34)

/-- 30_encoding.md R68, with R83's B[3:0] (the spec's own decision D5) and the filler NOP (D3; log entry 11): NOP
and SET_SHAPE 0xFF have no effect on any state, every other encoding has one on some state, and a SET_SHAPE with
B in 0x10..0xFE selects shape B[3:0] like any other byte. -/
def Obligations.HintEncodingsHaveNoEffect : Prop :=
  (∀ s : State, exec .nop s = .next s ∧ exec (.setShape 0xFF#8) s = .next s) ∧
  (∀ i : Instr, i ≠ .nop → i ≠ .setShape 0xFF#8 → ∃ s t : State, exec i s = .next t ∧ t ≠ s) ∧
  (∀ (b : Byte) (s : State), 0x10 ≤ b.toNat → b.toNat ≤ 0xFE →
    exec (.setShape b) s = exec (.setShape ((b.extractLsb' 0 4).setWidth 8)) s ∧
    ∃ t, exec (.setShape b) s = .next t ∧ t.shape = b.extractLsb' 0 4)

/-- 30_encoding.md R62 to R64, R66 (the places of the fields and of the period's bytes are the spec's own decisions
D3 and D19) and 40_configuration.md R83 (D5; log entry 11): the operand fields are unsigned numbers, the period is
HI * 256 + LO, and the shape number of a byte other than the sentinel 0xFF is B[3:0]. -/
def Obligations.OperandsAreUnsignedFields : Prop :=
  (∀ w : CmdWord,
    match decode w with
    | .nop => True
    | .setShape b => b.toNat = w.toNat % 2 ^ 8
    | .setPeriod hi lo => hi.toNat = w.toNat / 2 ^ 8 % 2 ^ 8 ∧ lo.toNat = w.toNat % 2 ^ 8
    | .tick c => c.toNat = w.toNat % 2 ^ 32) ∧
  (∀ (hi lo : Byte) (s : State), ∃ t, exec (.setPeriod hi lo) s = .next t ∧
    t.period.toNat = hi.toNat * 256 + lo.toNat) ∧
  (∀ (b : Byte) (s : State), b ≠ 0xFF#8 → ∃ t, exec (.setShape b) s = .next t ∧
    t.shape.toNat = b.toNat % 16)

/-! ### Configuration commands -/

/-- 40_configuration.md R80 (the spec's own command, decision D3): NOP completes and no register changes. -/
def Obligations.NopChangesNothing : Prop := ∀ s : State, exec .nop s = .next s

/-- 40_configuration.md R81: SET_SHAPE with the sentinel changes no register and the envelope continues as if
it had not been sent. The test is on the whole byte: 0x0F restarts with shape 15, and ACC then is 0 by R82, the
spec's own decision D11 (log entry 11). -/
def Obligations.SentinelShapeChangesNothing : Prop :=
  (∀ s : State, exec (.setShape 0xFF#8) s = .next s) ∧
  (∀ (is : List Instr) (s : State), runCommands (.setShape 0xFF#8 :: is) s = runCommands is s) ∧
  (∀ s : State, ∃ t, exec (.setShape 0x0F#8) s = .next t ∧ t.shape = 15#4 ∧ t.pos = 0#6 ∧ t.acc = 0)

/-- 40_configuration.md R82: a SET_SHAPE with B ≠ 0xFF loads the shape and restarts the envelope; everything
not listed keeps its value. Rests on the spec's own decisions D5 (B[3:0]), D11 (ACC and LEVEL) and on the
general knowledge of 10_state.md R23 and R31 (LOOP, the first level). -/
def Obligations.SetShapeRestartsEnvelope : Prop :=
  ∀ (b : Byte) (s : State), b ≠ 0xFF#8 →
    exec (.setShape b) s = .next
      { s with
        shape := b.extractLsb' 0 4
        loop := b.getLsbD 3 && !b.getLsbD 0
        pos := 0#6
        acc := 0
        level := if b.getLsbD 2 then 0#5 else 31#5 }

/-- 40_configuration.md R84: the restart happens whatever the current shape is, the current one included, so
a second SET_SHAPE undoes the progress of a TICK between (derived by the spec from R82). -/
def Obligations.RepeatedShapeUndoesTicks : Prop :=
  (∀ (b : Byte) (s : State), b ≠ 0xFF#8 → ∃ t, exec (.setShape b) s = .next t ∧
    t.pos = 0#6 ∧ t.acc = 0 ∧ t.shape = b.extractLsb' 0 4 ∧
    t.level = env (b.extractLsb' 0 4) 0#6) ∧
  (∀ (b : Byte) (cs : List Cycles) (s : State), b ≠ 0xFF#8 →
    runCommands (.setShape b :: cs.map .tick ++ [.setShape b]) s = exec (.setShape b) s)

/-- 40_configuration.md R83 (the spec's own decision D5): the high nibble of a shape byte other than the
sentinel does not matter. -/
def Obligations.ShapeHighNibbleIgnored : Prop :=
  ∀ (b b' : Byte) (s : State), b ≠ 0xFF#8 → b' ≠ 0xFF#8 → b.toNat % 16 = b'.toNat % 16 →
    exec (.setShape b) s = exec (.setShape b') s

/-- 40_configuration.md R85, R86: SET_PERIOD stores HI * 256 + LO (decision D19) and changes nothing else, repeated
it changes nothing further, and the new period first acts at the next TICK, which measures the cycles already
in ACC against the new step length by 41_tick.md R102, the spec's own decision D10 (log entry 11). -/
def Obligations.SetPeriodWritesPeriodOnly : Prop :=
  ∀ (hi lo : Byte) (s : State),
    exec (.setPeriod hi lo) s = .next { s with period := BitVec.ofNat 16 (hi.toNat * 256 + lo.toNat) } ∧
    runCommands [.setPeriod hi lo, .setPeriod hi lo] s = exec (.setPeriod hi lo) s ∧
    ∀ c : Cycles, ∃ t, runCommands [.setPeriod hi lo, .tick c] s = .next t ∧
      t.period.toNat = hi.toNat * 256 + lo.toNat ∧
      t.acc = (s.acc + c.toNat) % (max (hi.toNat * 256 + lo.toNat) 1 * s.params.div) ∧
      t.pos = (adv s.loop)^[
        (s.acc + c.toNat) / (max (hi.toNat * 256 + lo.toNat) 1 * s.params.div)] s.pos

/-- 40_configuration.md R87, 10_state.md R21 (derived by the spec): states that differ only in PERIOD being 0
or 1 show the same output levels under every command sequence, and end in states that differ at most in
PERIOD. -/
def Obligations.PeriodZeroIndistinguishableFromOne : Prop :=
  ∀ (is : List Instr) (s : State),
    levelsAfter is { s with period := 0#16 } = levelsAfter is { s with period := 1#16 } ∧
    ∃ (t : State) (p : Period), runCommands is { s with period := 0#16 } = .next t ∧
      runCommands is { s with period := 1#16 } = .next { t with period := p }

/-- 70_reset_and_hazards.md R154 (derived by the spec): SET_PERIOD and a non-sentinel SET_SHAPE commute. -/
def Obligations.SetShapeAndSetPeriodCommute : Prop :=
  ∀ (b hi lo : Byte) (s : State), b ≠ 0xFF#8 →
    ∃ t, runCommands [.setPeriod hi lo, .setShape b] s = .next t ∧
      runCommands [.setShape b, .setPeriod hi lo] s = .next t

/-- 20_memory.md R53 (derived by the spec): NOP, SET_SHAPE and SET_PERIOD are idempotent, TICK is not. -/
def Obligations.ConfigurationIsIdempotent : Prop :=
  (∀ (i : Instr) (s : State), (∀ c, i ≠ .tick c) → runCommands [i, i] s = exec i s) ∧
  (∃ (c : Cycles) (s t u : State), Inv s ∧ exec (.tick c) s = .next t ∧
    runCommands [.tick c, .tick c] s = .next u ∧ t ≠ u)

/-! ### TICK -/

/-- 41_tick.md R101: the step length is max(PERIOD, 1) * DIV of the PERIOD as it stands when the TICK executes, it
lies between DIV and 65535 * DIV, one position lasts it, and PERIOD 0 acts as 1. The remainder (ACC + C) mod S,
for an ACC at or above S too, is R102's, the spec's own decision D10 (log entry 11). -/
def Obligations.StepLengthIsPeriodTimesDivider : Prop :=
  ∀ (s : State) (c : Cycles), 0 < s.params.div →
    (s.params.div ≤ max s.period.toNat 1 * s.params.div ∧
      max s.period.toNat 1 * s.params.div ≤ 65535 * s.params.div ∧
      (s.params.div = 8 → 8 ≤ max s.period.toNat 1 * s.params.div ∧
        max s.period.toNat 1 * s.params.div ≤ 524280)) ∧
    (∃ t, exec (.tick c) s = .next t ∧
      t.acc = (s.acc + c.toNat) % (max s.period.toNat 1 * s.params.div) ∧
      (s.acc < max s.period.toNat 1 * s.params.div → c.toNat = max s.period.toNat 1 * s.params.div →
        t.pos = adv s.loop s.pos ∧ t.acc = s.acc)) ∧
    (∃ t : State, exec (.tick c) { s with period := 0#16 } = .next { t with period := 0#16 } ∧
      exec (.tick c) { s with period := 1#16 } = .next { t with period := 1#16 })

/-- 41_tick.md R103: an advance wraps by the 6-bit mask when looping and clamps at 63 when holding. A TICK leaves the
position (ACC + C) div S advances on, as R102 counts them, the spec's own decision D10 (log entry 11). -/
def Obligations.AdvanceWrapsOrClamps : Prop :=
  (∀ p : Position, (adv true p).toNat = (p.toNat + 1) % 64 ∧ (adv false p).toNat = min (p.toNat + 1) 63) ∧
  (∀ (c : Cycles) (s : State), ∃ t, exec (.tick c) s = .next t ∧
    t.pos = (adv s.loop)^[(s.acc + c.toNat) / stepLength s] s.pos)

/-- TICK leaves exactly the state of R100's pseudocode run statement by statement, its loop and all
(41_tick.md R100, R110; its readings of the document are the spec's own decisions D9, D10). -/
def Obligations.TickRefinesPseudocodeLoop : Prop :=
  ∀ (c : Cycles) (s : State), exec (.tick c) s = .next (tickByLoop c s)

/-- 41_tick.md R102 and R25 (the spec's own decision D10; R25's first bound is derived by the spec): TICK keeps
the cycles of no whole step, fewer than a step length, and no cycle is lost: the whole steps and the remainder
make up ACC + C. -/
def Obligations.TickAccountsForEveryCycle : Prop :=
  ∀ (c : Cycles) (s : State), 0 < s.params.div → ∃ (t : State) (n : Nat), exec (.tick c) s = .next t ∧
    t.acc < stepLength s ∧ stepLength t = stepLength s ∧
    n * stepLength s + t.acc = s.acc + c.toNat ∧ t.pos = (adv s.loop)^[n] s.pos

/-- 41_tick.md R107: under every lawful table nearest_ge(sum, n) is the least level k with n * AMP(k) >= sum, and
there is one for every sum up to n * 65536 (derived by the spec from 10_state.md R33). The exact comparison on
integers is the spec's own decision D8 and log entry 10 (DEDUCED). -/
def Obligations.NearestGeIsLeastLevel : Prop :=
  ∀ (p : Params) (sum n : Nat), Lawful p → 1 ≤ n → sum ≤ n * 65536 →
    sum ≤ n * amp p (nearestGe p sum n) ∧
    ∀ k : Level, k.toNat < (nearestGe p sum n).toNat → n * amp p k < sum

/-- The round trip at the table's points (95_test_vectors.md W3, which 90_conflicts.md C1 makes 10_state.md
R33's strict increase rest on): nearest_ge(AMP(k), 1) = k under every lawful table. -/
def Obligations.RoundTripAtTablePoints : Prop :=
  ∀ (p : Params) (k : Level), Lawful p → nearestGe p (amp p k) 1 = k

/-- 41_tick.md R104, R105 (the spec's own decision D9, the number of advances D10, the exact comparison D8; log
entries 10 and 11): with no advance TICK sets LEVEL to the level of the current position; with n >= 1 advances to
the least level whose amplitude, n times, reaches the sum of the amplitudes of the n positions left; with one
advance that is the level of the position left. All other state but ACC and POS is unchanged. -/
def Obligations.TickLevelIsLouderRoundedMean : Prop :=
  ∀ (c : Cycles) (s : State), Lawful s.params → ∃ t, exec (.tick c) s = .next t ∧
    t = { s with acc := t.acc, pos := t.pos, level := t.level } ∧
    (advances s c = 0 → t.level = env s.shape s.pos ∧ t.pos = s.pos) ∧
    (1 ≤ advances s c →
      ((samples s (advances s c)).map (amp s.params)).sum ≤ advances s c * amp s.params t.level ∧
      ∀ k : Level, k.toNat < t.level.toNat →
        advances s c * amp s.params k < ((samples s (advances s c)).map (amp s.params)).sum) ∧
    (advances s c = 1 → t.level = env s.shape s.pos)

/-- 41_tick.md R108, vector T6: under the default table (the spec's own decision D8; log entry 2) a TICK that samples
the levels 31 and 0 leaves level 23, the mean amplitude's, not 15 or 16, the mean of the levels. That TICK 16 makes
two advances of PERIOD 1 rests on DIV = 8 at reset (D7; log entry 1, PRESUMED). -/
def Obligations.LevelsAverageInLinearAmplitude : Prop :=
  let s : State := { State.reset with period := 1#16, shape := 4#4, pos := 31#6, level := 19#5 }
  samples s 2 = [31#5, 0#5] ∧ ∃ t, exec (.tick 16#32) s = .next t ∧ t.level = 23#5 ∧ t.pos = 33#6

/-- 41_tick.md R109 (derived by the spec; shapes by decision D6, samples by D9): once a holding shape stands at 63, it
does so after every command sequence without a non-sentinel SET_SHAPE and after every edge without reset at which
no such command completes, SHAPE and LOOP unchanged, and a LEVEL that is ENV(SHAPE, 63) stays it. Every TICK leaves
LEVEL there. ENV(SHAPE, 63) is 31 for shapes 11 and 13 and 0 for every other holding shape, and 63 advances reach
63 from 0. That POS, SHAPE and LOOP stay so at an edge at which a command in flight waits is log entry 6 (DEDUCED),
where 93_implementation_defined.md I13 gives a debug view any value; the completing edge is log entry 15 (DEDUCED). -/
def Obligations.HoldingEnvelopeStaysFinished : Prop :=
  (∀ (is : List Instr) (s : State), s.loop = false → s.pos = 63#6 →
    (∀ b, Instr.setShape b ∈ is → b = 0xFF#8) →
    ∃ t, runCommands is s = .next t ∧ t.pos = 63#6 ∧ t.shape = s.shape ∧ t.loop = false ∧
      (Lawful s.params → s.level = env s.shape 63#6 → t.level = env s.shape 63#6)) ∧
  (∀ (is : List Instr) (c : Cycles) (s : State), Lawful s.params → s.loop = false → s.pos = 63#6 →
    (∀ b, Instr.setShape b ∈ is → b = 0xFF#8) →
    ∃ t, runCommands (is ++ [.tick c]) s = .next t ∧ t.pos = 63#6 ∧ t.shape = s.shape ∧
      t.loop = false ∧ t.level = env s.shape 63#6) ∧
  (∀ s : State, s.loop = false → s.pos = 63#6 → s.pinsNow.rst = false →
    (∀ w b, s.flight = some ⟨w, 0⟩ → decode w = .setShape b → b = 0xFF#8) →
    ∃ t, step s = .next t ∧ t.pos = 63#6 ∧ t.shape = s.shape ∧ t.loop = false ∧
      (Lawful s.params → s.level = env s.shape 63#6 → t.level = env s.shape 63#6)) ∧
  (∀ sh : ShapeNo, loopOf sh = false →
    env sh 63#6 = if sh = 11#4 ∨ sh = 13#4 then 31#5 else 0#5) ∧
  ((adv false)^[63] 0#6 = 63#6)

/-- 41_tick.md R110 (derived by the spec): a TICK of a looping shape that makes a whole number q >= 1 of loops
ends at the position it began at, with a level that depends neither on that position nor on q; under the
default table (decision D8) F(s) is 1475464 for the shapes 8, 10, 12 and 14. -/
def Obligations.WholeLoopsReturnToPosition : Prop :=
  (∀ (c : Cycles) (s : State) (q : Nat), s.loop = true → 1 ≤ q → advances s c = 64 * q →
    ∃ t, exec (.tick c) s = .next t ∧ t.pos = s.pos ∧
      t.level = nearestGe s.params (tableSum s.params s.shape) 64) ∧
  (∀ sh : ShapeNo, loopOf sh = true → tableSum defaultParams sh = 1475464)

/-- 41_tick.md R111 (derived by the spec), for any number of equal parts as in 70_reset_and_hazards.md R163
(decision D31): m >= 1 TICKs of a cycles leave the state one TICK of m * a cycles leaves, but for LEVEL. -/
def Obligations.OversamplingKeepsProgress : Prop :=
  ∀ (m : Nat) (a c : Cycles) (s : State), 1 ≤ m → c.toNat = m * a.toNat →
    ∃ t u, runCommands (List.replicate m (.tick a)) s = .next t ∧ exec (.tick c) s = .next u ∧
      u = { t with level := u.level }

/-- 41_tick.md R111 (derived by the spec): two TICKs of a and b cycles leave the POS and ACC of one TICK of
a + b cycles; LEVEL can differ. -/
def Obligations.SplitTicksAgreeOnProgress : Prop :=
  (∀ (a b c : Cycles) (s : State), c.toNat = a.toNat + b.toNat →
    ∃ t u, runCommands [.tick a, .tick b] s = .next t ∧ exec (.tick c) s = .next u ∧
      u = { t with level := u.level }) ∧
  (∃ (a b c : Cycles) (s t u : State), Inv s ∧ c.toNat = a.toNat + b.toNat ∧
    runCommands [.tick a, .tick b] s = .next t ∧ exec (.tick c) s = .next u ∧ t.level ≠ u.level)

/-- 41_tick.md R112 (derived by the spec): when ACC is below the step length, TICK's ACC, POS and samples are
those of C single-cycle steps. -/
def Obligations.TickMatchesCycleByCycleView : Prop :=
  ∀ (c : Cycles) (s : State), s.acc < stepLength s → ∃ t, exec (.tick c) s = .next t ∧
    cycleSteps (stepLength s) s.shape s.loop c.toNat ⟨s.acc, s.pos, []⟩ =
      ⟨t.acc, t.pos, samples s (advances s c)⟩

/-- 41_tick.md R113 (derived by the spec): after a TICK with n >= 1, LEVEL lies between the least and the
greatest sampled level. -/
def Obligations.LevelWithinSampledLevels : Prop :=
  ∀ (c : Cycles) (s : State) (least greatest : Level), Lawful s.params → 1 ≤ advances s c →
    (∀ l ∈ samples s (advances s c), least.toNat ≤ l.toNat ∧ l.toNat ≤ greatest.toNat) →
    ∃ t, exec (.tick c) s = .next t ∧ least.toNat ≤ t.level.toNat ∧ t.level.toNat ≤ greatest.toNat

/-- 41_tick.md R114 (derived by the spec): after a non-sentinel SET_SHAPE, TICKs of exactly one step each leave
the shape's table entry by entry, and the 65th repeats for a looping shape and holds for a holding one. -/
def Obligations.OneStepTicksReproduceTable : Prop :=
  ∀ (b : Byte) (c : Cycles) (s : State), Lawful s.params → b ≠ 0xFF#8 → c.toNat = stepLength s →
    (∀ k : Nat, k < 64 →
      ∃ t, runCommands (.setShape b :: List.replicate (k + 1) (.tick c)) s = .next t ∧
        t.level = env (b.extractLsb' 0 4) (BitVec.ofNat 6 k)) ∧
    ∃ t, runCommands (.setShape b :: List.replicate 65 (.tick c)) s = .next t ∧
      t.level = env (b.extractLsb' 0 4) (if loopOf (b.extractLsb' 0 4) then 0#6 else 63#6)

/-- 70_reset_and_hazards.md R171 (derived by the spec): a SET_PERIOD that leaves ACC at or above the new step
length makes the next TICK catch up by (ACC + C) div S advances, at least one, even for C = 0. -/
def Obligations.LoweredPeriodCatchesUp : Prop :=
  ∀ (hi lo : Byte) (c : Cycles) (s u : State), 0 < s.params.div →
    exec (.setPeriod hi lo) s = .next u → stepLength u ≤ s.acc →
    1 ≤ (s.acc + c.toNat) / stepLength u ∧
    ∃ t, exec (.tick c) u = .next t ∧ t.pos = (adv s.loop)^[(s.acc + c.toNat) / stepLength u] s.pos ∧
      t.acc = (s.acc + c.toNat) % stepLength u ∧ t.acc < stepLength u

/-- 41_tick.md R115 (the spec's own decision D21): the widths the quantities of TICK need, for DIV up to 2^16
and for DIV = 8. -/
def Obligations.TickQuantitiesFitTheirWidths : Prop :=
  ∀ (c : Cycles) (s : State), Inv s → s.params.div ≤ 2 ^ 16 →
    let n := advances s c
    let sum := sampleSum s.params s.shape s.loop s.pos n
    stepLength s < 2 ^ (16 + Nat.clog 2 s.params.div) ∧ totalCycles s c < 2 ^ 33 ∧ n < 2 ^ 33 ∧
    sum ≤ n * 65536 ∧ sum < 2 ^ 49 ∧ (∀ k : Level, n * amp s.params k < 2 ^ 49) ∧
    (s.params.div = 8 →
      stepLength s < 2 ^ 19 ∧ n < 2 ^ 30 ∧ sum < 2 ^ 46 ∧ ∀ k : Level, n * amp s.params k < 2 ^ 46)

/-- 70_reset_and_hazards.md R173: the order of commands matters: there is a state in which swapping a TICK with a
SET_SHAPE, a TICK with a SET_PERIOD, two SET_SHAPEs, two SET_PERIODs, two TICKs of different counts, or two frames
changes the result. -/
def Obligations.OrderOfCommandsMatters : Prop :=
  ∃ s : State, Inv s ∧
    (∀ xs ys : List Instr,
      (xs, ys) ∈ ([([.tick 8#32], [.setShape 0x0D#8]), ([.tick 8#32], [.setPeriod 1#8 0#8]),
        ([.setShape 0x0D#8], [.setShape 0x0C#8]), ([.setPeriod 0#8 1#8], [.setPeriod 0#8 2#8]),
        ([.tick 8#32], [.tick 16#32]),
        (expand (.frame 1 0x0E 40000), expand (.frame 2 0x0D 40000))] : List (List Instr × List Instr)) →
      ∃ t u, runCommands (xs ++ ys) s = .next t ∧ runCommands (ys ++ xs) s = .next u ∧ t ≠ u)

/-! ### The constant tables -/

/-- 10_state.md R30, R31 (from general knowledge, by the spec's own mark, decision D6): the shape ROM is the
table written out for every shape. -/
def Obligations.ShapeRomIsTheWrittenTable : Prop :=
  ((List.range 16).map fun s =>
      (firstWave (BitVec.ofNat 4 s), secondWave (BitVec.ofNat 4 s), loopOf (BitVec.ofNat 4 s))) =
    [(.rampDown, .holdLow, false), (.rampDown, .holdLow, false), (.rampDown, .holdLow, false),
     (.rampDown, .holdLow, false), (.rampUp, .holdLow, false), (.rampUp, .holdLow, false),
     (.rampUp, .holdLow, false), (.rampUp, .holdLow, false), (.rampDown, .rampDown, true),
     (.rampDown, .holdLow, false), (.rampDown, .rampUp, true), (.rampDown, .holdHigh, false),
     (.rampUp, .rampUp, true), (.rampUp, .holdHigh, false), (.rampUp, .rampDown, true),
     (.rampUp, .holdLow, false)] ∧
  ∀ (s : ShapeNo) (j : Fin 32),
    env s (BitVec.ofNat 6 j) = (firstWave s).entry j ∧
    env s (BitVec.ofNat 6 (32 + j)) = (secondWave s).entry j ∧
    (BaseWave.rampUp.entry j).toNat = j ∧ (BaseWave.rampDown.entry j).toNat = 31 - j ∧
    (BaseWave.holdHigh.entry j).toNat = 31 ∧ (BaseWave.holdLow.entry j).toNat = 0

/-- 10_state.md R34 (the spec's own decision D8): the table after reset is lawful, and each entry 1..31 is
65536 * 10^(-0.75 * (31 - k) / 20) rounded half up, said in integers by raising to the 80th power. -/
def Obligations.DefaultTableFollowsDecibelLaw : Prop :=
  Lawful State.reset.params ∧
  ∀ k : Level, 1 ≤ k.toNat →
    (2 * amp State.reset.params k - 1) ^ 80 * 10 ^ (3 * (31 - k.toNat)) ≤ (2 * 65536) ^ 80 ∧
    (2 * 65536) ^ 80 < (2 * amp State.reset.params k + 1) ^ 80 * 10 ^ (3 * (31 - k.toNat))

/-- 10_state.md R33: a lawful table is 0 at level 0, 65536 at level 31 and strictly increasing over all levels;
the table after reset obeys these laws. -/
def Obligations.LawfulTablesIncreaseStrictly : Prop :=
  (∀ p : Params, Lawful p → amp p 0#5 = 0 ∧ amp p 31#5 = 65536 ∧
    ∀ j k : Level, j.toNat < k.toNat ↔ amp p j < amp p k) ∧
  Lawful State.reset.params

/-- No command writes the ROMs (10_state.md R29), and no clock edge does, reset included (70_reset_and_hazards.md
R153). That they and DIV are parameters in State that no step writes is the model's choice (log entries 1 and 2,
DESIGN CHOICE). -/
def Obligations.NothingWritesTheRoms : Prop :=
  (∀ (i : Instr) (s : State), ∃ t, exec i s = .next t ∧ t.params = s.params) ∧
  (∀ s : State, ∃ t, step s = .next t ∧ t.params = s.params)

/-! ### Reset, invariants and who writes what -/

/-- 70_reset_and_hazards.md R150, R152 (the spec's own decisions D13, D14): the registers after reset, an idle
and ready block, and the spec's default DIV = 8 (D7, general knowledge). -/
def Obligations.ResetValues : Prop :=
  State.reset.period = 0#16 ∧ State.reset.shape = 0#4 ∧ State.reset.loop = false ∧
  State.reset.pos = 63#6 ∧ State.reset.acc = 0 ∧ State.reset.level = 0#5 ∧
  State.reset.level = env State.reset.shape State.reset.pos ∧
  State.reset.flight = none ∧ State.reset.cmdReady = true ∧ State.reset.params.div = 8

/-- 70_reset_and_hazards.md R151 (derived by the spec): the reset state meets the invariants. -/
def Obligations.ResetStateIsSafe : Prop := Inv State.reset

/-- From a reset edge on, whatever TICKs, periods, sentinels and NOPs follow, POS stays 63 and LEVEL 0, until
the first non-sentinel SET_SHAPE (70_reset_and_hazards.md R151, derived by the spec from R150, D13). -/
def Obligations.ResetEnvelopeStaysSilent : Prop :=
  ∀ (is : List Instr) (s : State), Lawful s.params → (∀ b, Instr.setShape b ∈ is → b = 0xFF#8) →
    ∃ t, runCommands is s.applyReset = .next t ∧ t.pos = 63#6 ∧ t.level = 0#5 ∧
      t.shape = 0#4 ∧ t.loop = false

/-- Every rising edge from a state that meets the invariants answers a next state that meets them: lawful
parameters, LOOP = loop_of(SHAPE) (10_state.md R23, general knowledge by the spec's mark), ACC in its range
(R20, R25). That they hold at an edge at which a command in flight waits is log entry 6 (DEDUCED), where
93_implementation_defined.md I13 gives a debug view any value. -/
def Obligations.EveryStepKeepsInvariants : Prop :=
  ∀ s : State, Inv s → ∃ t, step s = .next t ∧ Inv t

/-- 60_exceptions.md R130 (the spec's own decision D18): no command faults in any state, no sequence of
commands stops, and no sequence of clock edges stops. -/
def Obligations.BlockNeverStops : Prop :=
  (∀ (is : List Instr) (s : State), ∃ t, runCommands is s = .next t) ∧
  (∀ (k : Nat) (s : State), ∃ t, runEdges k s = .next t)

/-- 10_state.md R20, R41 (the spec's own decisions D22, D23): at an edge without reset each register changes only when
a command that the table lists as its writer completes; idle edges change none. That an edge at which a command in
flight waits changes none of PERIOD, SHAPE, LOOP, POS and ACC is log entry 6 (DEDUCED), where
93_implementation_defined.md I13 gives a debug view any value. -/
def Obligations.RegistersWrittenOnlyByTheirCommands : Prop :=
  ∀ s t : State, step s = .next t → s.pinsNow.rst = false →
    (t.period ≠ s.period → ∃ w hi lo, s.flight = some ⟨w, 0⟩ ∧ decode w = .setPeriod hi lo) ∧
    (t.shape ≠ s.shape ∨ t.loop ≠ s.loop →
      ∃ w b, s.flight = some ⟨w, 0⟩ ∧ decode w = .setShape b ∧ b ≠ 0xFF#8) ∧
    (t.pos ≠ s.pos ∨ t.acc ≠ s.acc ∨ t.level ≠ s.level →
      ∃ w, s.flight = some ⟨w, 0⟩ ∧
        ((∃ b, decode w = .setShape b ∧ b ≠ 0xFF#8) ∨ ∃ c, decode w = .tick c))

/-! ### The clocked port -/

/-- A step runs the decoded command: at the last edge of a command in flight, without reset, the step is the
command's meaning on the state whose handshake is free again and whose pins have moved on (10_state.md R40, the
spec's own decision D2); that this edge accepts no word, whatever cmd_valid is, is log entry 15 (DEDUCED). And so for
a word placed where the next step runs it (log entry 5, DESIGN CHOICE). -/
def Obligations.StepRunsDecodedCommand : Prop :=
  (∀ (s : State) (w : CmdWord) (i : Instr), s.pinsNow.rst = false → s.flight = some ⟨w, 0⟩ →
    decode w = i → step s = exec i { s with flight := none, pins := s.pins.tail }) ∧
  (∀ (s : State) (nbits w : Nat) (i : Instr), decodeTableWord nbits w = some i →
    step (s.withFetchWord nbits w) = exec i { s with flight := none })

/-- 70_reset_and_hazards.md R152, 60_exceptions.md R134 (the spec's own decision D14): at an edge with rst = 1
every register takes its reset value, the command in flight is abandoned with none of its writes, none is
accepted, whatever cmd_valid is; cmd_ready is 0, and 1 again at the first edge with rst = 0. -/
def Obligations.ResetEdgeWins : Prop :=
  ∀ s : State, s.pinsNow.rst = true →
    s.cmdReady = false ∧
    ∃ t, step s = .next t ∧
      t = { s with period := 0#16, shape := 0#4, loop := false, pos := 63#6, acc := 0, level := 0#5,
                   flight := none, pins := s.pins.tail } ∧
      t.cmdReady = !t.pinsNow.rst

/-- 10_state.md R40 (the spec's own decision D2), 60_exceptions.md R143 (D27): an idle block is ready, accepts a
valid command, and without one changes no register. -/
def Obligations.IdleBlockAcceptsOrRests : Prop :=
  ∀ s : State, s.pinsNow.rst = false → s.flight = none →
    s.cmdReady = true ∧
    (s.pinsNow.valid = true → step s = .next
      { s with flight := some ⟨s.pinsNow.cmd, waitOf (decode s.pinsNow.cmd) s⟩, pins := s.pins.tail }) ∧
    (s.pinsNow.valid = false → step s = .next { s with pins := s.pins.tail })

/-- 10_state.md R40, 70_reset_and_hazards.md R170 (the spec's own decisions D2, D15): while a command is in flight,
its last edge included, the block is not ready, accepts nothing whatever cmd_valid is, and shows the LEVEL of
before; at the last edge the command runs. That the other registers too hold their values until then is log entry 6
(DEDUCED; 93_implementation_defined.md I13 gives any value), the completing edge log entry 15 (DEDUCED). -/
def Obligations.BusyBlockShowsOldLevel : Prop :=
  ∀ (s : State) (w : CmdWord) (k : Nat), s.flight = some ⟨w, k⟩ →
    s.cmdReady = false ∧
    (s.pinsNow.rst = false →
      (∀ j : Nat, k = j + 1 → step s = .next { s with flight := some ⟨w, j⟩, pins := s.pins.tail }) ∧
      (k = 0 → step s = exec (decode w) { s with flight := none, pins := s.pins.tail }))

/-- A command accepted by an idle block completes LAT edges later, whatever the latency is, with its whole
effect at once, unless a reset comes: until then every register keeps its value, and what the host drives on
cmd_valid and cmd meanwhile has no effect (10_state.md R40, 20_memory.md R53; decisions D2, D15). The edges are
counted as log entries 3 (DESIGN CHOICE) and 15 (DEDUCED) say, the registers in flight as entry 6 (DEDUCED). -/
def Obligations.AcceptedCommandCompletesAtomically : Prop :=
  ∀ (s : State) (i : Instr), s.flight = none → s.pinsNow.rst = false → s.pinsNow.valid = true →
    decode s.pinsNow.cmd = i →
    (∀ p ∈ s.pins.tail.take (waitOf i s + 1), p.rst = false) →
    (∀ k : Nat, k ≤ waitOf i s →
      runEdges (k + 1) s = .next
        { s with flight := some ⟨s.pinsNow.cmd, waitOf i s - k⟩, pins := s.pins.drop (k + 1) }) ∧
    runEdges (waitOf i s + 2) s = exec i { s with pins := s.pins.drop (waitOf i s + 2) }

/-- 20_memory.md R54: the clocked port refines the atomic command sequence: driven with a sequence of commands,
an idle block takes them one at a time, in order, each reading the state the one before left, whatever the
latencies are. The number of edges is the model's: log entries 3 and 4 (DESIGN CHOICE) and 15 (DEDUCED). -/
def Obligations.ClockedPortRunsCommandsInOrder : Prop :=
  ∀ (is : List Instr) (s : State) (ps : List Pins), s.flight = none →
    runEdges (programPins is s).length { s with pins := programPins is s ++ ps } =
      runCommands is { s with pins := ps }

/-! ### The assembler and the host -/

/-- 30_encoding.md R70 (the spec's own decision D29): the assembler's encodings, and the rejection of an operand
that does not fit its field. -/
def Obligations.AssemblerEncodesLines : Prop :=
  assemble .nop = some [0#34] ∧
  (∀ b : Nat, assemble (.setShape b) =
    if b ≤ 255 then some [BitVec.ofNat 34 (2 ^ 32 + b)] else none) ∧
  (∀ hi lo : Nat, assemble (.setPeriod hi lo) =
    if hi ≤ 255 ∧ lo ≤ 255 then some [BitVec.ofNat 34 (2 * 2 ^ 32 + hi * 256 + lo)] else none) ∧
  (∀ c : Nat, assemble (.tick c) =
    if c ≤ 4294967295 then some [BitVec.ofNat 34 (3 * 2 ^ 32 + c)] else none)

/-- 30_encoding.md R71 (the spec's own decision D29): a pseudo-instruction means exactly its expansion, and one whose
period is above 65535 is rejected (R70). -/
def Obligations.PseudoInstructionsMeanTheirExpansions : Prop :=
  (∀ p : Nat, assemble (.setPeriod16 p) = assemble (.setPeriod (p / 256) (p % 256))) ∧
  assemble .keepShape = assemble (.setShape 0xFF) ∧
  (∀ p b c : Nat, assemble (.frame p b c) =
    (assemble (.setPeriod16 p)).bind fun xs => (assemble (.setShape b)).bind fun ys =>
      (assemble (.tick c)).map fun zs => xs ++ ys ++ zs) ∧
  (∀ p : Nat, 65535 < p → assemble (.setPeriod16 p) = none ∧ ∀ b c : Nat, assemble (.frame p b c) = none)

/-- The words of an accepted line decode to the commands the line stands for (30_encoding.md R70, R71; D29). -/
def Obligations.AssembledLinesDecodeBack : Prop :=
  ∀ l : Source, l.wellFormed = true →
    ∃ ws, assemble l = some ws ∧ ws.map decode = expand l ∧ ws.map canonical = ws

/-- 30_encoding.md R70 (the spec's own decision D29): a comment, from `;` to the end of the line, has no effect. -/
def Obligations.CommentsHaveNoEffect : Prop :=
  ∀ l comment : List Char, assembleLine (l ++ ';' :: comment) = assembleLine l

/-- 70_reset_and_hazards.md R160 to R163 (the spec's own decisions D16, D20, D31): with a sample rate of m * 50
Hz that divides the source clock, the host's commands are, frame after frame, SET_PERIOD, SET_SHAPE with its
byte passed through, and m TICKs of source_clock / rate cycles. With the emulation disabled it issues none (R165,
D30). -/
def Obligations.HostIssuesFramesInOrder : Prop :=
  ∀ (clock m c : Nat) (fs : List Frame), 1 ≤ m → clock = c * (m * 50) → c < 2 ^ 32 →
    hostProgram ⟨clock, m * 50, true⟩ fs =
      .ok (fs.flatMap fun f =>
        .setPeriod f.hi f.lo :: .setShape f.b :: List.replicate m (.tick (BitVec.ofNat 32 c))) ∧
    hostProgram ⟨clock, m * 50, false⟩ fs = .ok []

/-- 70_reset_and_hazards.md R164: on a sample rate that 50 does not divide the host stops before issuing any
command. That it does so with the emulation disabled too, where R165 (the spec's own decision D30) has it not use
the block, is the model's choice (log entry 12, DEDUCED). -/
def Obligations.HostStopsOnBadSampleRate : Prop :=
  ∀ (clock rate : Nat) (emulation : Bool) (fs : List Frame), rate % 50 ≠ 0 →
    hostProgram ⟨clock, rate, emulation⟩ fs = .error .rateNotMultipleOf50

/-- 70_reset_and_hazards.md R166 (the spec's own decision D20): a channel without its envelope flag takes its 4-bit
volume v widened to 2v plus its low bit, and its own tone-mixer bit; an envelope-enabled channel takes level, and
its tone-mixer bit counts as set. With no level, the emulation disabled, what it takes is not said (R165, D30; log
entry 12). -/
def Obligations.ChannelVolumeFromLevel : Prop :=
  (∀ (level : Option Level) (c : Channel), c.envelopeEnabled = false → ∃ x : ChannelSample,
    channelSample level c = .ok x ∧ x.volume.toNat = 2 * c.volume.toNat + c.volume.toNat % 2 ∧
      x.tone = c.toneBit) ∧
  (∀ (level : Level) (c : Channel), c.envelopeEnabled = true →
    channelSample (some level) c = .ok ⟨level, true⟩) ∧
  (∀ c : Channel, c.envelopeEnabled = true → channelSample none c = .error .emulationDisabled)

/-- 70_reset_and_hazards.md R170, R161 step 4 (the spec's own decisions D15, D20): driving a sequence of commands,
the host reads from `level` exactly the level each TICK leaves, one for each TICK, in order. `level` is no TICK's
result while a command is in flight or `rst` is 1, and a TICK that a reset abandons is never read. The edges are
counted as log entries 3, 4 and 15 say. -/
def Obligations.HostReadsEachTickResult : Prop :=
  (∀ (is : List Instr) (awaited : Bool) (s : State), s.flight = none →
    readResults (programPins is s).length awaited { s with pins := programPins is s } = tickLevels is s) ∧
  (∀ (awaited : Bool) (s : State),
    s.flight ≠ none ∨ s.pinsNow.rst = true → levelIsResult awaited s = false) ∧
  (∀ (k : Nat) (awaited : Bool) (s : State), s.pinsNow.rst = true → (∀ p ∈ s.pins.tail, p.valid = false) →
    readResults k awaited s = [])

/-- 70_reset_and_hazards.md R161 step 4, R163 (the spec's own decisions D16, D20, D31): with a sample rate of m * 50
Hz that divides the source clock a song has m output samples a frame, and after the j-th TICK of a frame every
envelope-enabled channel of it takes the level that TICK leaves, every other its own volume. -/
def Obligations.HostUsesLevelOfEachTick : Prop :=
  ∀ (clock m c j : Nat) (ch : Fin 3) (fs gs : List Frame) (f : Frame) (s : State),
    1 ≤ m → clock = c * (m * 50) → c < 2 ^ 32 → j < m →
    let commands (g : Frame) (n : Nat) : List Instr :=
      .setPeriod g.hi g.lo :: .setShape g.b :: List.replicate n (.tick (BitVec.ofNat 32 c))
    ∃ t samples x,
      runCommands ((fs.flatMap fun g => commands g m) ++ commands f (j + 1)) s = .next t ∧
      songSamples ⟨clock, m * 50, true⟩ (fs ++ f :: gs) s = .ok samples ∧
      samples.length = (fs.length + 1 + gs.length) * m ∧ samples[fs.length * m + j]? = some x ∧
      x[ch] =
        if f.channels[ch].envelopeEnabled then .ok ⟨t.level, true⟩
        else .ok ⟨widenVolume f.channels[ch].volume, f.channels[ch].toneBit⟩

/-- 60_exceptions.md R139: one envelope serves all three tone channels: at each output sample of a song there is one
level, of the one block the song runs on, that every channel of the frame whose envelope flag is set takes, and a
channel whose flag is clear takes what no level changes. -/
def Obligations.OneEnvelopeServesAllChannels : Prop :=
  ∀ (h : HostSetup) (fs : List Frame) (s : State) (is : List Instr)
    (samples : List (Vector (Except HostStop ChannelSample) 3)),
    h.emulation = true → hostProgram h fs = .ok is → songSamples h fs s = .ok samples →
    ∀ x ∈ samples, ∃ level ∈ tickLevels is s, ∃ f ∈ fs, ∀ ch : Fin 3, ∃ y : ChannelSample,
      x[ch] = .ok y ∧
      if f.channels[ch].envelopeEnabled then y.volume = level
      else ∀ other : Option Level, channelSample other f.channels[ch] = .ok y
end

