-- ==== Sys2Proof/Laws/State.lean ====
section
/-! SUPPORT. One lemma per field per update of State: no later proof unfolds a record update. -/

namespace Sys2Proof.Machine

variable (s : State)

/-! ### `State.setPeriod` -/

@[simp] theorem State.setPeriod_params (p : Period) : (s.setPeriod p).params = s.params := rfl
@[simp] theorem State.setPeriod_period (p : Period) : (s.setPeriod p).period = p := rfl
@[simp] theorem State.setPeriod_shape (p : Period) : (s.setPeriod p).shape = s.shape := rfl
@[simp] theorem State.setPeriod_loop (p : Period) : (s.setPeriod p).loop = s.loop := rfl
@[simp] theorem State.setPeriod_pos (p : Period) : (s.setPeriod p).pos = s.pos := rfl
@[simp] theorem State.setPeriod_acc (p : Period) : (s.setPeriod p).acc = s.acc := rfl
@[simp] theorem State.setPeriod_level (p : Period) : (s.setPeriod p).level = s.level := rfl
@[simp] theorem State.setPeriod_flight (p : Period) : (s.setPeriod p).flight = s.flight := rfl
@[simp] theorem State.setPeriod_pins (p : Period) : (s.setPeriod p).pins = s.pins := rfl

/-! ### `State.restart` -/

@[simp] theorem State.restart_params (sh : ShapeNo) : (s.restart sh).params = s.params := rfl
@[simp] theorem State.restart_period (sh : ShapeNo) : (s.restart sh).period = s.period := rfl
@[simp] theorem State.restart_shape (sh : ShapeNo) : (s.restart sh).shape = sh := rfl
@[simp] theorem State.restart_loop (sh : ShapeNo) : (s.restart sh).loop = loopOf sh := rfl
@[simp] theorem State.restart_pos (sh : ShapeNo) : (s.restart sh).pos = 0#6 := rfl
@[simp] theorem State.restart_acc (sh : ShapeNo) : (s.restart sh).acc = 0 := rfl
@[simp] theorem State.restart_level (sh : ShapeNo) : (s.restart sh).level = env sh 0#6 := rfl
@[simp] theorem State.restart_flight (sh : ShapeNo) : (s.restart sh).flight = s.flight := rfl
@[simp] theorem State.restart_pins (sh : ShapeNo) : (s.restart sh).pins = s.pins := rfl

/-! ### `State.ticked` -/

@[simp] theorem State.ticked_params (a : Nat) (p : Position) (l : Level) : (s.ticked a p l).params = s.params := rfl
@[simp] theorem State.ticked_period (a : Nat) (p : Position) (l : Level) : (s.ticked a p l).period = s.period := rfl
@[simp] theorem State.ticked_shape (a : Nat) (p : Position) (l : Level) : (s.ticked a p l).shape = s.shape := rfl
@[simp] theorem State.ticked_loop (a : Nat) (p : Position) (l : Level) : (s.ticked a p l).loop = s.loop := rfl
@[simp] theorem State.ticked_pos (a : Nat) (p : Position) (l : Level) : (s.ticked a p l).pos = p := rfl
@[simp] theorem State.ticked_acc (a : Nat) (p : Position) (l : Level) : (s.ticked a p l).acc = a := rfl
@[simp] theorem State.ticked_level (a : Nat) (p : Position) (l : Level) : (s.ticked a p l).level = l := rfl
@[simp] theorem State.ticked_flight (a : Nat) (p : Position) (l : Level) : (s.ticked a p l).flight = s.flight := rfl
@[simp] theorem State.ticked_pins (a : Nat) (p : Position) (l : Level) : (s.ticked a p l).pins = s.pins := rfl

/-! ### `State.nextEdge` -/

@[simp] theorem State.nextEdge_params : s.nextEdge.params = s.params := rfl
@[simp] theorem State.nextEdge_period : s.nextEdge.period = s.period := rfl
@[simp] theorem State.nextEdge_shape : s.nextEdge.shape = s.shape := rfl
@[simp] theorem State.nextEdge_loop : s.nextEdge.loop = s.loop := rfl
@[simp] theorem State.nextEdge_pos : s.nextEdge.pos = s.pos := rfl
@[simp] theorem State.nextEdge_acc : s.nextEdge.acc = s.acc := rfl
@[simp] theorem State.nextEdge_level : s.nextEdge.level = s.level := rfl
@[simp] theorem State.nextEdge_flight : s.nextEdge.flight = s.flight := rfl
@[simp] theorem State.nextEdge_pins : s.nextEdge.pins = s.pins.tail := rfl

/-! ### `State.applyReset` -/

@[simp] theorem State.applyReset_params : s.applyReset.params = s.params := rfl
@[simp] theorem State.applyReset_period : s.applyReset.period = 0#16 := rfl
@[simp] theorem State.applyReset_shape : s.applyReset.shape = 0#4 := rfl
@[simp] theorem State.applyReset_loop : s.applyReset.loop = false := rfl
@[simp] theorem State.applyReset_pos : s.applyReset.pos = 63#6 := rfl
@[simp] theorem State.applyReset_acc : s.applyReset.acc = 0 := rfl
@[simp] theorem State.applyReset_level : s.applyReset.level = 0#5 := rfl
@[simp] theorem State.applyReset_flight : s.applyReset.flight = none := rfl
@[simp] theorem State.applyReset_pins : s.applyReset.pins = s.pins := rfl

/-! ### `State.accept` -/

@[simp] theorem State.accept_params (w : CmdWord) : (s.accept w).params = s.params := rfl
@[simp] theorem State.accept_period (w : CmdWord) : (s.accept w).period = s.period := rfl
@[simp] theorem State.accept_shape (w : CmdWord) : (s.accept w).shape = s.shape := rfl
@[simp] theorem State.accept_loop (w : CmdWord) : (s.accept w).loop = s.loop := rfl
@[simp] theorem State.accept_pos (w : CmdWord) : (s.accept w).pos = s.pos := rfl
@[simp] theorem State.accept_acc (w : CmdWord) : (s.accept w).acc = s.acc := rfl
@[simp] theorem State.accept_level (w : CmdWord) : (s.accept w).level = s.level := rfl
@[simp] theorem State.accept_flight (w : CmdWord) : (s.accept w).flight = some ⟨w, waitOf (decode w) s⟩ := rfl
@[simp] theorem State.accept_pins (w : CmdWord) : (s.accept w).pins = s.pins := rfl

/-! ### `State.await` -/

@[simp] theorem State.await_params (w : CmdWord) (k : Nat) : (s.await w k).params = s.params := rfl
@[simp] theorem State.await_period (w : CmdWord) (k : Nat) : (s.await w k).period = s.period := rfl
@[simp] theorem State.await_shape (w : CmdWord) (k : Nat) : (s.await w k).shape = s.shape := rfl
@[simp] theorem State.await_loop (w : CmdWord) (k : Nat) : (s.await w k).loop = s.loop := rfl
@[simp] theorem State.await_pos (w : CmdWord) (k : Nat) : (s.await w k).pos = s.pos := rfl
@[simp] theorem State.await_acc (w : CmdWord) (k : Nat) : (s.await w k).acc = s.acc := rfl
@[simp] theorem State.await_level (w : CmdWord) (k : Nat) : (s.await w k).level = s.level := rfl
@[simp] theorem State.await_flight (w : CmdWord) (k : Nat) : (s.await w k).flight = some ⟨w, k⟩ := rfl
@[simp] theorem State.await_pins (w : CmdWord) (k : Nat) : (s.await w k).pins = s.pins := rfl

/-! ### `State.release` -/

@[simp] theorem State.release_params : s.release.params = s.params := rfl
@[simp] theorem State.release_period : s.release.period = s.period := rfl
@[simp] theorem State.release_shape : s.release.shape = s.shape := rfl
@[simp] theorem State.release_loop : s.release.loop = s.loop := rfl
@[simp] theorem State.release_pos : s.release.pos = s.pos := rfl
@[simp] theorem State.release_acc : s.release.acc = s.acc := rfl
@[simp] theorem State.release_level : s.release.level = s.level := rfl
@[simp] theorem State.release_flight : s.release.flight = none := rfl
@[simp] theorem State.release_pins : s.release.pins = s.pins := rfl

/-! ### `State.placeWord` -/

@[simp] theorem State.placeWord_params (w : CmdWord) : (s.placeWord w).params = s.params := rfl
@[simp] theorem State.placeWord_period (w : CmdWord) : (s.placeWord w).period = s.period := rfl
@[simp] theorem State.placeWord_shape (w : CmdWord) : (s.placeWord w).shape = s.shape := rfl
@[simp] theorem State.placeWord_loop (w : CmdWord) : (s.placeWord w).loop = s.loop := rfl
@[simp] theorem State.placeWord_pos (w : CmdWord) : (s.placeWord w).pos = s.pos := rfl
@[simp] theorem State.placeWord_acc (w : CmdWord) : (s.placeWord w).acc = s.acc := rfl
@[simp] theorem State.placeWord_level (w : CmdWord) : (s.placeWord w).level = s.level := rfl
@[simp] theorem State.placeWord_flight (w : CmdWord) : (s.placeWord w).flight = some ⟨w, 0⟩ := rfl
@[simp] theorem State.placeWord_pins (w : CmdWord) : (s.placeWord w).pins = Pins.quiet :: s.pins := rfl

end Sys2Proof.Machine
end

