-- ==== Sys2Proof/Laws/Ops.lean ====
section
/-! SUPPORT. The lemmas of the shared operations: what each can do, said once. -/

namespace Sys2Proof.Machine

/-! ### The meanings, as equations -/

@[simp] theorem exec_nop (s : State) : exec .nop s = .next s := rfl

@[simp] theorem exec_setShape (b : Byte) (s : State) :
    exec (.setShape b) s = .next (if isSentinel b then s else s.restart (shapeOf b)) := rfl

@[simp] theorem exec_setPeriod (hi lo : Byte) (s : State) :
    exec (.setPeriod hi lo) s = .next (s.setPeriod (periodOf hi lo)) := rfl

@[simp] theorem exec_tick (c : Cycles) (s : State) :
    exec (.tick c) s = .next (s.ticked (totalCycles s c % stepLength s)
      (advBy s.loop s.pos (advances s c))
      (resample s.params s.shape s.loop s.pos (advances s c))) := rfl

@[simp] theorem isSentinel_iff (b : Byte) : isSentinel b = true ↔ b = 0xFF#8 := by
  simp [isSentinel, sentinel]

/-- No command touches the parameters, the handshake or the pins. -/
theorem exec_keeps {i : Instr} {s t : State} (h : exec i s = .next t) :
    t.params = s.params ∧ t.flight = s.flight ∧ t.pins = s.pins := by
  cases i with
  | nop => cases h; exact ⟨rfl, rfl, rfl⟩
  | setShape b => cases h; split <;> exact ⟨rfl, rfl, rfl⟩
  | setPeriod hi lo => cases h; exact ⟨rfl, rfl, rfl⟩
  | tick c => cases h; exact ⟨rfl, rfl, rfl⟩

/-! ### The operands -/

theorem shapeOf_toNat (b : Byte) : (shapeOf b).toNat = b.toNat % 16 := by
  simp [shapeOf, BitVec.extractLsb'_toNat]

theorem periodOf_toNat (hi lo : Byte) : (periodOf hi lo).toNat = hi.toNat * 256 + lo.toNat := by
  have h := BitVec.toNat_append hi lo
  rw [← Nat.shiftLeft_add_eq_or_of_lt lo.isLt, Nat.shiftLeft_eq] at h
  exact h

/-! ### What one edge can do -/

/-- The five things a rising edge can do, guards included. -/
theorem step_cases {s : State} {o : Host.Outcome State Fault Refusal} (h : step s = o) :
    (s.pinsNow.rst = true ∧ o = .next s.nextEdge.applyReset) ∨
    (s.pinsNow.rst = false ∧ s.flight = none ∧ s.pinsNow.valid = true ∧
      o = .next (s.nextEdge.accept s.pinsNow.cmd)) ∨
    (s.pinsNow.rst = false ∧ s.flight = none ∧ s.pinsNow.valid = false ∧ o = .next s.nextEdge) ∨
    (∃ w, s.pinsNow.rst = false ∧ s.flight = some ⟨w, 0⟩ ∧ o = exec (decode w) s.nextEdge.release) ∨
    (∃ w k, s.pinsNow.rst = false ∧ s.flight = some ⟨w, k + 1⟩ ∧ o = .next (s.nextEdge.await w k)) := by
  subst h
  cases hr : s.pinsNow.rst with
  | true => exact .inl ⟨rfl, by simp [step, State.edge, hr]⟩
  | false =>
    refine .inr ?_
    cases hf : s.flight with
    | none =>
      cases hv : s.pinsNow.valid with
      | true => exact .inl ⟨rfl, rfl, rfl, by simp [step, State.edge, hr, hf, hv]⟩
      | false => exact .inr (.inl ⟨rfl, rfl, rfl, by simp [step, State.edge, hr, hf, hv]⟩)
    | some f =>
      obtain ⟨w, k⟩ := f
      cases k with
      | zero => exact .inr (.inr (.inl ⟨w, rfl, rfl, by simp [step, State.edge, hr, hf]⟩))
      | succ k => exact .inr (.inr (.inr ⟨w, k, rfl, rfl, by simp [step, State.edge, hr, hf]⟩))

/-! ### Sequences -/

theorem runCommands_append {is js : List Instr} {s t : State} (h : runCommands is s = .next t) :
    runCommands (is ++ js) s = runCommands js t := by
  induction is generalizing s with
  | nil => cases h; rfl
  | cons i is ih =>
    simp only [runCommands, List.cons_append] at h ⊢
    cases hi : exec i s with
    | next u => rw [hi] at h; exact ih h
    | fault r => rw [hi] at h; cases h
    | refused r => rw [hi] at h; cases h

theorem runEdges_add {a b : Nat} {s t : State} (h : runEdges a s = .next t) :
    runEdges (a + b) s = runEdges b t := by
  induction a generalizing s with
  | zero => cases h; simp
  | succ a ih =>
    rw [Nat.succ_add, runEdges]
    rw [runEdges] at h
    cases hs : step s with
    | next u => rw [hs] at h; exact ih h
    | fault r => rw [hs] at h; cases h
    | refused r => rw [hs] at h; cases h

/-! ### The arithmetic of TICK -/

theorem stepLength_pos {s : State} (h : 0 < s.params.div) : 0 < stepLength s :=
  Nat.mul_pos (by omega) h

/-- The 6-bit mask is the remainder by 64. -/
theorem and_0x3F (a : Nat) : a &&& 0x3F = a % 64 := Nat.and_two_pow_sub_one_eq_mod a 6

theorem adv_looping_toNat (p : Position) : (adv true p).toNat = (p.toNat + 1) % 64 := by
  simp only [adv, if_true, BitVec.toNat_ofNat, and_0x3F]
  omega

theorem adv_holding_toNat (p : Position) : (adv false p).toNat = min (p.toNat + 1) 63 := by
  have := p.isLt
  simp only [adv, Bool.false_eq_true, if_false, BitVec.toNat_ofNat]
  omega

theorem advBy_looping_toNat (p : Position) (n : Nat) : (advBy true p n).toNat = (p.toNat + n) % 64 := by
  simp only [advBy, if_true, BitVec.toNat_ofNat, and_0x3F]
  omega

theorem advBy_holding_toNat (p : Position) (n : Nat) :
    (advBy false p n).toNat = min (p.toNat + n) 63 := by
  simp only [advBy, Bool.false_eq_true, if_false, BitVec.toNat_ofNat]
  omega

@[simp] theorem advBy_zero (loop : Bool) (p : Position) : advBy loop p 0 = p := by
  have := p.isLt
  apply BitVec.eq_of_toNat_eq
  cases loop
  · rw [advBy_holding_toNat]; omega
  · rw [advBy_looping_toNat]; omega

theorem advBy_advBy (loop : Bool) (p : Position) (m n : Nat) :
    advBy loop (advBy loop p m) n = advBy loop p (m + n) := by
  apply BitVec.eq_of_toNat_eq
  cases loop
  · simp only [advBy_holding_toNat]; omega
  · simp only [advBy_looping_toNat]; omega

/-! ### The ROMs -/

/-- AMP is strictly increasing under a lawful table (10_state.md R33). -/
theorem amp_lt_amp {p : Params} (h : Lawful p) {j k : Level} (hjk : j.toNat < k.toNat) :
    amp p j < amp p k := by
  have key : ∀ d a : Nat, a + d + 1 < 32 →
      amp p (BitVec.ofNat 5 a) < amp p (BitVec.ofNat 5 (a + d + 1)) := by
    intro d
    induction d with
    | zero => intro a ha; exact h.2.2.2 ⟨a, by omega⟩
    | succ d ih =>
      intro a ha
      exact (ih a (by omega)).trans (h.2.2.2 ⟨a + d + 1, by omega⟩)
  have hk := k.isLt
  have := key (k.toNat - j.toNat - 1) j.toNat (by omega)
  rw [show j.toNat + (k.toNat - j.toNat - 1) + 1 = k.toNat by omega] at this
  simpa using this

theorem amp_le_ampOne {p : Params} (h : Lawful p) (k : Level) : amp p k ≤ ampOne := by
  rw [← h.2.2.1]
  rcases Nat.lt_or_ge k.toNat 31 with hk | hk
  · exact (amp_lt_amp h (by simpa using hk)).le
  · have : k = 31#5 := BitVec.eq_of_toNat_eq (by have := k.isLt; simp; omega)
    rw [this]

end Sys2Proof.Machine
end

