-- ==== Sys2Proof/Laws/PerInstr.lean ====
section
/-! SUPPORT. A family of facts about every command as syntax: its canonical word belongs to its own row of
the opcode table (30_encoding.md R61). -/

namespace Sys2Proof.Laws

/-- The table's row of a command. -/
def EncodesOwnRow.row : Instr → OpcodeRow
  | .nop => ⟨"NOP", 0x300000000#34, 0x000000000#34⟩
  | .setShape _ => ⟨"SET_SHAPE", 0x300000000#34, 0x100000000#34⟩
  | .setPeriod _ _ => ⟨"SET_PERIOD", 0x300000000#34, 0x200000000#34⟩
  | .tick _ => ⟨"TICK", 0x300000000#34, 0x300000000#34⟩

/-- The row stands in the table, and the command's word has its pattern under its mask. -/
def EncodesOwnRow.Statement (i : Instr) : Prop :=
  EncodesOwnRow.row i ∈ opcodeTable ∧ (EncodesOwnRow.row i).covers (encode i) = true

theorem EncodesOwnRow.nop : EncodesOwnRow.Statement .nop :=
  ⟨by simp [row, opcodeTable], by decide⟩

theorem EncodesOwnRow.setShape (b : Byte) : EncodesOwnRow.Statement (.setShape b) := by
  refine ⟨by simp [row, opcodeTable], ?_⟩
  simp only [OpcodeRow.covers, row, encode, beq_iff_eq]
  ext i hi
  interval_cases i <;> simp

theorem EncodesOwnRow.setPeriod (hi lo : Byte) : EncodesOwnRow.Statement (.setPeriod hi lo) := by
  refine ⟨by simp [row, opcodeTable], ?_⟩
  simp only [OpcodeRow.covers, row, encode, beq_iff_eq]
  ext i h
  interval_cases i <;> simp

theorem EncodesOwnRow.tick (c : Cycles) : EncodesOwnRow.Statement (.tick c) := by
  refine ⟨by simp [row, opcodeTable], ?_⟩
  simp only [OpcodeRow.covers, row, encode, beq_iff_eq]
  ext i h
  interval_cases i <;> simp

end Sys2Proof.Laws
end

