-- ==== Sys2Proof/Laws/Protocol.lean ====
section
/-! SUPPORT. What the host reads of a command sequence, part by part. -/

namespace Sys2Proof.Machine

/-- The levels read of two sequences one after the other. -/
theorem tickLevels_append {is js : List Instr} {s t : State} (h : runCommands is s = .next t) :
    tickLevels (is ++ js) s = tickLevels is s ++ tickLevels js t := by
  induction is generalizing s with
  | nil => cases h; rfl
  | cons i is ih =>
    obtain ⟨u, hu⟩ : ∃ u, exec i s = .next u := by cases i <;> exact ⟨_, rfl⟩
    simp only [runCommands, hu] at h
    simp only [tickLevels, hu, List.cons_append, ih h, List.append_assoc]

/-- One level is read for each TICK (70_reset_and_hazards.md R161 step 4). -/
theorem tickLevels_length (is : List Instr) (s : State) :
    (tickLevels is s).length = (is.filter isTick).length := by
  induction is generalizing s with
  | nil => rfl
  | cons i is ih =>
    obtain ⟨u, hu⟩ : ∃ u, exec i s = .next u := by cases i <;> exact ⟨_, rfl⟩
    simp only [tickLevels, hu, List.length_append, ih, List.filter_cons]
    cases isTick i <;> simp; omega

/-- `level` is no TICK's result at an edge at which `cmd_ready` is 0 (70_reset_and_hazards.md R170). -/
theorem levelIsResult_eq_false {awaited : Bool} {s : State} (h : s.cmdReady = false) :
    levelIsResult awaited s = false := by simp [levelIsResult, h]

end Sys2Proof.Machine
end

