-- ==== Sys2Proof/Tests/Slice0.lean ====
section
/-! SUPPORT. The model's own tests. Expected results are those of 95_test_vectors.md (the vector's id stands
beside each), and the witnesses show that the hypotheses of the statements can be met. -/

namespace Sys2Proof.Tests

-- One theorem after another: many at once ask for more memory than the check allows.
set_option Elab.async false

open Sys2Proof.Machine

/-- The state tuple of 95_test_vectors.md, with the default parameters, idle and with quiet pins. -/
def st (period : Nat) (shape : Nat) (loop : Bool) (pos acc level : Nat) : State :=
  { State.reset with
    period := BitVec.ofNat 16 period, shape := BitVec.ofNat 4 shape, loop := loop,
    pos := BitVec.ofNat 6 pos, acc := acc, level := BitVec.ofNat 5 level }

/-! ### Decoding: words written out bit by bit from 30_encoding.md R62 to R65 -/

theorem test_decode_nop : decode 0b00_11111111111111111111111111111111#34 = .nop := by decide
theorem test_decode_setShape :
    decode 0b01_111111111111111111111111_00001101#34 = .setShape 0b00001101#8 := by decide
theorem test_decode_setPeriod :
    decode 0b10_1010101111001101_00010010_00110100#34 = .setPeriod 0x12#8 0x34#8 := by decide
theorem test_decode_tick : decode 0b11_00000000000000001001110001000000#34 = .tick 40000#32 := by decide
theorem test_decode_rejects_35_bits : decodeBits (2 ^ 34) = .error .widerThanCommandWord := by decide
theorem test_encode_examples :
    encode (.setShape 0x0D#8) = 0x10000000D#34 ∧ encode (.setPeriod 0x01#8 0x00#8) = 0x200000100#34 ∧
      encode (.tick 40000#32) = 0x300009C40#34 := by decide

/-! ### Well-formed source lines: each check refuses an operand one too large -/

theorem test_wf_shape_byte : (Source.setShape 256).wellFormed = false := by decide
theorem test_wf_period_hi : (Source.setPeriod 256 0).wellFormed = false := by decide
theorem test_wf_period_lo : (Source.setPeriod 0 256).wellFormed = false := by decide
theorem test_wf_cycles : (Source.tick (2 ^ 32)).wellFormed = false := by decide
theorem test_wf_period16 : (Source.setPeriod16 65536).wellFormed = false := by decide
theorem test_wf_frame_period : (Source.frame 65536 0 0).wellFormed = false := by decide
theorem test_wf_frame_shape : (Source.frame 0 256 0).wellFormed = false := by decide
theorem test_wf_frame_cycles : (Source.frame 0 0 (2 ^ 32)).wellFormed = false := by decide

/-! ### The assembler (95_test_vectors.md section 2.1) -/

theorem test_assemble_frame :
    assembleLine ['F', 'R', 'A', 'M', 'E', ' ', '6', '2', '5', ',', ' ', '0', 'x', '0', 'E', ',', ' ',
      '4', '0', '0', '0', '0', ' ', ';', 'x'] =
    .ok [0x200000271#34, 0x10000000E#34, 0x300009C40#34] := by decide +kernel
theorem test_assemble_too_large :
    assembleLine ['S', 'E', 'T', '_', 'S', 'H', 'A', 'P', 'E', ' ', '2', '5', '6'] =
    .error .operandTooLarge := by decide +kernel

/-! ### The commands, one step each, as the host places their words -/

/-- What the very next step makes of the word `w`. -/
def after (s : State) (w : Nat) : Option State :=
  match step (s.withFetchWord 40 w) with
  | .next t => some t
  | .fault _ => none
  | .refused _ => none

/-- NP2. -/
theorem test_nop : after (st 1 12 true 12 4 6) 0x0FFFFFFFF = some (st 1 12 true 12 4 6) := by decide +kernel
/-- S5. -/
theorem test_setShape : after (st 1 12 true 12 4 6) 0x10000000A = some (st 1 10 true 0 0 31) := by
  decide +kernel
/-- S4: 0x0F is not the sentinel. -/
theorem test_setShape_15 : after State.reset 0x10000000F = some (st 0 15 false 0 0 0) := by decide +kernel
/-- Q2. -/
theorem test_setPeriod : after (st 1 13 false 1 4 0) 0x200000000 = some (st 0 13 false 1 4 0) := by
  decide +kernel
/-- T21: the catch-up after a lowered period. -/
theorem test_tick_catches_up : after (st 10 0 false 0 700 31) 0x300000000 = some (st 10 0 false 8 60 28) := by
  decide +kernel
/-- T13: the largest number of advances. -/
theorem test_tick_largest : after (st 0 11 false 0 0 31) 0x3FFFFFFFF = some (st 0 11 false 63 7 31) := by
  decide +kernel

/-- F(12) of 41_tick.md R110, and NG7. -/
theorem test_amplitudes :
    tableSum defaultParams 12#4 = 1475464 ∧ nearestGe defaultParams 125651 2 = 31#5 := by decide +kernel

/-! ### The host -/

/-- A channel of its own volume, and one on the envelope whose tone-mixer bit is clear. -/
def ch0 : Channel := ⟨false, false, 9#4⟩
def ch1 : Channel := ⟨true, false, 9#4⟩

/-- A frame of period 625 and shape byte `b` on the three channels. -/
def fr (b : Byte) : Frame := ⟨0x02#8, 0x71#8, b, #v[ch0, ch1, ch1]⟩

/-- What the three channels then are at level `l` (70_reset_and_hazards.md R166). -/
def sample (l : Level) : Vector (Except HostStop ChannelSample) 3 :=
  #v[.ok ⟨19#5, false⟩, .ok ⟨l, true⟩, .ok ⟨l, true⟩]

/-- P2: the sentinel passed through in the later frames. -/
theorem test_songSamples_four_frames :
    songSamples ⟨2000000, 50, true⟩ [fr 0x0E#8, fr 0xFF#8, fr 0xFF#8, fr 0xFF#8] State.reset =
      .ok [sample 3#5, sample 12#5, sample 20#5, sample 28#5] := by decide +kernel
/-- P5: two TICKs a frame. -/
theorem test_songSamples_oversampled :
    songSamples ⟨2000000, 100, true⟩ [fr 0x0A#8] State.reset = .ok [sample 30#5, sample 26#5] := by
  decide +kernel
/-- 70_reset_and_hazards.md R164, whether the emulation is on or off. -/
theorem test_rate_75 (e : Bool) : hostProgram ⟨2000000, 75, e⟩ [fr 0x0E#8] = .error .rateNotMultipleOf50 := by
  cases e <;> rfl
/-- 70_reset_and_hazards.md R170: a reset edge makes no level a result. -/
theorem test_reset_reads_nothing :
    levelIsResult true { State.reset with pins := [⟨true, false, 0#34⟩] } = false := by decide

/-! ### Witnesses: the hypotheses of each statement, met together -/

theorem witness_DecodeAndEncodeAgree : 34 ≤ (40 : Nat) := by decide
theorem witness_EveryWordIsACommand :
    0x1FFFFFF0D#34 &&& usedBits 0x10000000D#34 = 0x10000000D#34 &&& usedBits 0x10000000D#34 := by decide
theorem witness_HintEncodingsHaveNoEffect :
    Instr.setShape 0xFE#8 ≠ .nop ∧ Instr.setShape 0xFE#8 ≠ .setShape 0xFF#8 ∧
      0x10 ≤ (0x10#8).toNat ∧ (0x10#8).toNat ≤ 0xFE ∧ 0x10 ≤ (0xFE#8).toNat ∧ (0xFE#8).toNat ≤ 0xFE := by
  decide
/-- Serves every statement whose one hypothesis is that the shape byte is not the sentinel. -/
theorem witness_OperandsAreUnsignedFields : 0xFE#8 ≠ 0xFF#8 := by decide
theorem witness_SetShapeRestartsEnvelope : 0x0F#8 ≠ 0xFF#8 := by decide
theorem witness_RepeatedShapeUndoesTicks : 0x0D#8 ≠ 0xFF#8 := by decide
theorem witness_SetShapeAndSetPeriodCommute : 0x0D#8 ≠ 0xFF#8 := by decide
theorem witness_ShapeHighNibbleIgnored :
    0xFE#8 ≠ 0xFF#8 ∧ 0x0E#8 ≠ 0xFF#8 ∧ (0xFE#8).toNat % 16 = (0x0E#8).toNat % 16 := by decide
theorem witness_ConfigurationIsIdempotent : ∀ c, Instr.setPeriod 1#8 2#8 ≠ .tick c := by simp
/-- Both readings of the period at its boundary: PERIOD 0 and 65535. -/
theorem witness_StepLengthIsPeriodTimesDivider :
    0 < (st 0 0 false 0 7 31).params.div ∧ (st 0 0 false 0 7 31).params.div = 8 ∧
    (st 0 0 false 0 7 31).acc < max (st 0 0 false 0 7 31).period.toNat 1 * (st 0 0 false 0 7 31).params.div ∧
    (8#32).toNat = max (st 0 0 false 0 7 31).period.toNat 1 * (st 0 0 false 0 7 31).params.div ∧
    (524280#32).toNat = max (st 65535 0 false 0 0 0).period.toNat 1 * (st 65535 0 false 0 0 0).params.div := by
  decide
theorem witness_TickAccountsForEveryCycle : 0 < State.reset.params.div := by decide
theorem witness_NearestGeIsLeastLevel :
    Lawful defaultParams ∧ 1 ≤ 1 ∧ 0 ≤ 1 * 65536 ∧ 65536 ≤ 1 * 65536 := by decide
theorem witness_RoundTripAtTablePoints : Lawful defaultParams := by decide
/-- n = 0, n = 1 and n > 1. -/
theorem witness_TickLevelIsLouderRoundedMean :
    Lawful (st 1 0 false 0 0 31).params ∧ advances (st 1 0 false 0 0 31) 7#32 = 0 ∧
      advances (st 1 0 false 0 0 31) 8#32 = 1 ∧ 1 ≤ advances (st 1 0 false 0 0 31) 16#32 := by decide
/-- Shape 13 finished, at an edge at which a TICK completes. -/
theorem witness_HoldingEnvelopeStaysFinished :
    let s := (st 1 13 false 63 0 31).placeWord 0x300000009#34
    Lawful s.params ∧ s.loop = false ∧ s.pos = 63#6 ∧ s.level = env s.shape 63#6 ∧ s.pinsNow.rst = false ∧
      (∀ w b, s.flight = some ⟨w, 0⟩ → decode w = .setShape b → b = 0xFF#8) ∧
      (∀ b, Instr.setShape b ∈ [Instr.setShape 0xFF#8, .setPeriod 0#8 2#8, .tick 9#32] → b = 0xFF#8) ∧
      loopOf 13#4 = false ∧ loopOf 0#4 = false := by
  refine ⟨by decide, rfl, rfl, by decide, rfl, ?_, by simp, by decide, by decide⟩
  rintro w b hw hb
  cases hw
  exact absurd hb (by simp [decode, opOf])
theorem witness_WholeLoopsReturnToPosition :
    (st 1 12 true 5 0 0).loop = true ∧ 1 ≤ 1 ∧ advances (st 1 12 true 5 0 0) 512#32 = 64 * 1 ∧
      loopOf 12#4 = true := by decide
theorem witness_OversamplingKeepsProgress : 1 ≤ 2 ∧ (40000#32).toNat = 2 * (20000#32).toNat := by decide
theorem witness_SplitTicksAgreeOnProgress :
    (4294967295#32).toNat = (4294967294#32).toNat + (1#32).toNat := by decide
theorem witness_TickMatchesCycleByCycleView :
    (st 1 0 false 0 7 31).acc < stepLength (st 1 0 false 0 7 31) := by decide
theorem witness_LevelWithinSampledLevels :
    Lawful (st 1 4 false 31 0 19).params ∧ 1 ≤ advances (st 1 4 false 31 0 19) 16#32 ∧
      ∀ l ∈ samples (st 1 4 false 31 0 19) (advances (st 1 4 false 31 0 19) 16#32),
        (0#5).toNat ≤ l.toNat ∧ l.toNat ≤ (31#5).toNat := by decide +kernel
theorem witness_OneStepTicksReproduceTable :
    Lawful State.reset.params ∧ 0x0D#8 ≠ 0xFF#8 ∧ (8#32).toNat = stepLength State.reset ∧ 0 < 64 ∧
      63 < 64 := by decide
/-- The example of 70_reset_and_hazards.md R171. -/
theorem witness_LoweredPeriodCatchesUp :
    0 < (st 100 12 true 0 700 0).params.div ∧
      ∃ u, exec (.setPeriod 0#8 10#8) (st 100 12 true 0 700 0) = .next u ∧
        stepLength u ≤ (st 100 12 true 0 700 0).acc := ⟨by decide, _, rfl, by decide⟩
theorem witness_TickQuantitiesFitTheirWidths :
    Inv (st 65535 14 true 0 524279 0) ∧ (st 65535 14 true 0 524279 0).params.div ≤ 2 ^ 16 ∧
      (st 65535 14 true 0 524279 0).params.div = 8 := by decide
theorem witness_DefaultTableFollowsDecibelLaw : 1 ≤ (1#5 : Level).toNat := by decide
theorem witness_LawfulTablesIncreaseStrictly : Lawful defaultParams := by decide
theorem witness_ResetEnvelopeStaysSilent :
    Lawful State.reset.params ∧
      (∀ b, Instr.setShape b ∈ [Instr.tick 40000#32, .setShape 0xFF#8] → b = 0xFF#8) :=
  ⟨by decide, by simp⟩
theorem witness_EveryStepKeepsInvariants : Inv (st 1 12 true 12 4 6) := by decide
/-- A completing command of each writing kind, with the register it changes. -/
theorem witness_RegistersWrittenOnlyByTheirCommands :
    (∃ t, step (State.reset.withFetchWord 40 0x200000001) = .next t ∧
      (State.reset.withFetchWord 40 0x200000001).pinsNow.rst = false ∧
      t.period ≠ (State.reset.withFetchWord 40 0x200000001).period) ∧
    (∃ t, step (State.reset.withFetchWord 40 0x10000000D) = .next t ∧
      (State.reset.withFetchWord 40 0x10000000D).pinsNow.rst = false ∧
      t.shape ≠ (State.reset.withFetchWord 40 0x10000000D).shape) ∧
    (∃ t, step ((st 1 0 false 0 0 31).withFetchWord 40 0x300000009) = .next t ∧
      ((st 1 0 false 0 0 31).withFetchWord 40 0x300000009).pinsNow.rst = false ∧
      t.acc ≠ ((st 1 0 false 0 0 31).withFetchWord 40 0x300000009).acc) :=
  ⟨⟨_, rfl, rfl, by decide +kernel⟩, ⟨_, rfl, rfl, by decide +kernel⟩, ⟨_, rfl, rfl, by decide +kernel⟩⟩
theorem witness_StepRunsDecodedCommand :
    (State.reset.placeWord 0x300000008#34).pinsNow.rst = false ∧
      (State.reset.placeWord 0x300000008#34).flight = some ⟨0x300000008#34, 0⟩ ∧
      decode 0x300000008#34 = .tick 8#32 ∧ decodeTableWord 40 0x300000008 = some (.tick 8#32) := by decide
/-- A reset in the middle of a command, with cmd_valid 1. -/
theorem witness_ResetEdgeWins :
    State.pinsNow { st 1 12 true 12 4 6 with
      flight := some ⟨0x300000008#34, 3⟩, pins := [⟨true, true, 0x10000000D#34⟩] } |>.rst := by decide
theorem witness_IdleBlockAcceptsOrRests :
    (State.reset.pinsNow.rst = false ∧ State.reset.flight = none ∧ State.reset.pinsNow.valid = false) ∧
    (State.pinsNow { State.reset with pins := [Pins.present 0#34] }).rst = false ∧
      (State.pinsNow { State.reset with pins := [Pins.present 0#34] }).valid = true := by decide
/-- The last edge and a waiting one, at which the host presents a word. -/
theorem witness_BusyBlockShowsOldLevel :
    let s : State := { State.reset with pins := [Pins.present 0x10000000D#34] }
    State.flight { s with flight := some ⟨0#34, 0⟩ } = some ⟨0#34, 0⟩ ∧
      State.flight { s with flight := some ⟨0#34, 1⟩ } = some ⟨0#34, 0 + 1⟩ ∧ s.pinsNow.rst = false := by
  decide
/-- The host presents its next command while the first one is in flight. -/
theorem witness_AcceptedCommandCompletesAtomically :
    let s : State := { State.reset with
      pins := [Pins.present 0x300000008#34, Pins.present 0x10000000D#34, Pins.quiet] }
    s.flight = none ∧ s.pinsNow.rst = false ∧ s.pinsNow.valid = true ∧
      decode s.pinsNow.cmd = .tick 8#32 ∧
      ∀ p ∈ s.pins.tail.take (waitOf (.tick 8#32) s + 1), p.rst = false := by
  refine ⟨rfl, rfl, rfl, by decide, fun p hp => ?_⟩
  have := List.mem_of_mem_take hp
  simp [Pins.present, Pins.quiet] at this
  rcases this with rfl | rfl <;> rfl
theorem witness_ClockedPortRunsCommandsInOrder : State.reset.flight = none := by decide
theorem witness_PseudoInstructionsMeanTheirExpansions : 65535 < 65536 := by decide
theorem witness_AssembledLinesDecodeBack :
    (Source.frame 65535 255 4294967295).wellFormed = true := by decide
theorem witness_HostIssuesFramesInOrder : 1 ≤ 1 ∧ 2000000 = 40000 * (1 * 50) ∧ 40000 < 2 ^ 32 := by decide
theorem witness_HostStopsOnBadSampleRate : 75 % 50 ≠ 0 := by decide
theorem witness_ChannelVolumeFromLevel : ch1.envelopeEnabled = true ∧ ch0.envelopeEnabled = false := by decide
/-- An idle block; a block in flight; a reset edge in the middle of a TICK, nothing presented after it. -/
theorem witness_HostReadsEachTickResult :
    let s : State := { State.reset with
      flight := some ⟨0x300000008#34, 3⟩, pins := [⟨true, true, 0x300000008#34⟩, Pins.quiet] }
    State.reset.flight = none ∧ s.flight ≠ none ∧ s.pinsNow.rst = true ∧
      ∀ p ∈ s.pins.tail, p.valid = false := by decide
theorem witness_HostUsesLevelOfEachTick :
    1 ≤ 2 ∧ 2000000 = 20000 * (2 * 50) ∧ 20000 < 2 ^ 32 ∧ 0 < 2 ∧ 1 < 2 := by decide
theorem witness_OneEnvelopeServesAllChannels :
    ∃ is samples, hostProgram ⟨2000000, 50, true⟩ [fr 0x0E#8] = .ok is ∧
      songSamples ⟨2000000, 50, true⟩ [fr 0x0E#8] State.reset = .ok samples ∧ samples.length = 1 ∧
      (fr 0x0E#8).channels[(0 : Fin 3)].envelopeEnabled = false ∧
      (fr 0x0E#8).channels[(1 : Fin 3)].envelopeEnabled = true :=
  ⟨_, _, rfl, rfl, rfl, rfl, rfl⟩

end Sys2Proof.Tests
end

/-! SUPPORT. The amplitude ROM under a lawful table (10_state.md R33) and right after reset (R34). -/

namespace Sys2Proof.Machine

/-- Neighbours increase strictly, so AMP keeps the order of the levels. -/
theorem amp_le_amp {p : Params} (h : Lawful p) {j k : Level} (hjk : j.toNat ≤ k.toNat) :
    amp p j ≤ amp p k := by
  rcases Nat.lt_or_eq_of_le hjk with hlt | heq
  · exact (amp_lt_amp h hlt).le
  · rw [BitVec.eq_of_toNat_eq heq]

/-- AMP reflects the order of the levels too: a level at or below another is never the louder one. -/
theorem amp_lt_amp_iff {p : Params} (h : Lawful p) {j k : Level} :
    amp p j < amp p k ↔ j.toNat < k.toNat := by
  refine ⟨fun hlt => ?_, amp_lt_amp h⟩
  by_contra hkj
  exact (amp_le_amp h (Nat.le_of_not_lt hkj)).not_gt hlt

/-- The table of 10_state.md R34 and DIV = 8, which the block has after reset, obey R33 and R7. -/
theorem lawful_reset_params : Lawful State.reset.params := by decide

/-- Settles O36: the endpoints are laws of R33, and the order of all pairs follows from that of neighbours. -/
theorem lawfulTablesIncreaseStrictly : Obligations.LawfulTablesIncreaseStrictly := by
  refine ⟨fun p h => ?_, lawful_reset_params⟩
  have ⟨_, hzero, hone, _⟩ := h
  exact ⟨hzero, hone, fun _ _ => (amp_lt_amp_iff h).symm⟩

end Sys2Proof.Machine

/-! SUPPORT. The output samples of a song: the one level each takes for its three channels (60_exceptions.md R139). -/

namespace Sys2Proof.Machine

/-! ### One channel, and one frame, at an output sample -/

/-- The envelope flag of a channel selects the level read, whatever its own volume is. -/
theorem channelSample_of_enabled {c : Channel} (hc : c.envelopeEnabled = true) (level : Level) :
    channelSample (some level) c = .ok ⟨level, true⟩ := by
  simp [channelSample, toneMixerBit, hc]

/-- A channel without its envelope flag takes its own values: the level does not stand on the right. -/
theorem channelSample_of_disabled {c : Channel} (hc : c.envelopeEnabled = false) (level : Option Level) :
    channelSample level c = .ok ⟨widenVolume c.volume, c.toneBit⟩ := by
  simp [channelSample, toneMixerBit, hc]

theorem frameSample_getElem (level : Option Level) (f : Frame) (ch : Fin 3) :
    (frameSample level f)[ch] = channelSample level f.channels[ch] := by
  simp [frameSample]

/-! ### The samples of a song -/

/-- With the emulation on, the samples pair the levels read of the one block with the frames, in order. -/
theorem songSamples_of_emulation {h : HostSetup} {fs : List Frame} {is : List Instr}
    (he : h.emulation = true) (hp : hostProgram h fs = .ok is) (s : State) :
    songSamples h fs s = .ok
      (List.zipWith (fun level f => frameSample (some level) f) (tickLevels is s)
        (fs.flatMap fun f => List.replicate (ticksPerFrame h) f)) := by
  simp [songSamples, hp, he, Except.map, List.zipWith_map_left]

/-- Each sample of a song is one frame's, at one level read of the block. -/
theorem eq_frameSample_of_mem_songSamples {h : HostSetup} {fs : List Frame} {is : List Instr} {s : State}
    {samples : List (Vector (Except HostStop ChannelSample) 3)} {x : Vector (Except HostStop ChannelSample) 3}
    (he : h.emulation = true) (hp : hostProgram h fs = .ok is) (hs : songSamples h fs s = .ok samples)
    (hx : x ∈ samples) :
    ∃ level ∈ tickLevels is s, ∃ f ∈ fs, x = frameSample (some level) f := by
  rw [songSamples_of_emulation he hp] at hs
  cases hs
  rw [← List.map_uncurry_zip_eq_zipWith] at hx
  obtain ⟨⟨level, f⟩, hpair, rfl⟩ := List.mem_map.mp hx
  obtain ⟨hlevel, hf⟩ := List.of_mem_zip hpair
  obtain ⟨g, hg, hfg⟩ := List.mem_flatMap.mp hf
  obtain rfl := List.eq_of_mem_replicate hfg
  exact ⟨level, hlevel, f, hg, rfl⟩

/-- Settles O59: a sample is a frame's at one level, which only the flagged channels take. -/
theorem oneEnvelopeServesAllChannels : Obligations.OneEnvelopeServesAllChannels := by
  intro h fs s is samples he hp hs x hx
  obtain ⟨level, hlevel, f, hf, rfl⟩ := eq_frameSample_of_mem_songSamples he hp hs hx
  refine ⟨level, hlevel, f, hf, fun ch => ?_⟩
  rw [frameSample_getElem]
  cases hc : f.channels[ch].envelopeEnabled with
  | true => exact ⟨_, channelSample_of_enabled hc level, rfl⟩
  | false => exact ⟨_, channelSample_of_disabled hc (some level), channelSample_of_disabled hc⟩

end Sys2Proof.Machine

/-! SUPPORT. The command word: what decoding reads, what encoding writes, and how they agree
(30_encoding.md R60 to R67). -/

namespace Sys2Proof

open Sys2Proof.Machine

/-! ### The four opcodes -/

theorem opOf_cases (w : CmdWord) : opOf w = 0#2 ∨ opOf w = 1#2 ∨ opOf w = 2#2 ∨ opOf w = 3#2 := by
  have h : ∀ x : BitVec 2, x = 0#2 ∨ x = 1#2 ∨ x = 2#2 ∨ x = 3#2 := by decide
  exact h _

theorem decode_of_op0 {w : CmdWord} (h : opOf w = 0#2) : decode w = .nop := by simp [decode, h]

theorem decode_of_op1 {w : CmdWord} (h : opOf w = 1#2) : decode w = .setShape (w.extractLsb' 0 8) := by
  simp [decode, h]

theorem decode_of_op2 {w : CmdWord} (h : opOf w = 2#2) :
    decode w = .setPeriod (w.extractLsb' 8 8) (w.extractLsb' 0 8) := by
  simp [decode, h]

theorem decode_of_op3 {w : CmdWord} (h : opOf w = 3#2) : decode w = .tick (w.extractLsb' 0 32) := by
  simp [decode, h]

/-! ### Words as numbers: `OP` stands above the 32 bits of the payload -/

theorem opOf_eq_iff (w : CmdWord) {k : Nat} (hk : k < 4) :
    opOf w = BitVec.ofNat 2 k ↔ w.toNat / 2 ^ 32 = k := by
  rw [← BitVec.toNat_inj, opOf, BitVec.extractLsb'_toNat, BitVec.toNat_ofNat, Nat.shiftRight_eq_div_pow]
  omega

theorem field_toNat (w : CmdWord) (start len : Nat) :
    (w.extractLsb' start len).toNat = w.toNat / 2 ^ start % 2 ^ len := by
  rw [BitVec.extractLsb'_toNat, Nat.shiftRight_eq_div_pow]

theorem or_payload_toNat {n : Nat} (op : Nat) (hop : op < 4) (x : BitVec n) (hn : n ≤ 32) :
    (BitVec.ofNat 34 op <<< 32 ||| x.setWidth 34).toNat = op * 2 ^ 32 + x.toNat := by
  have hx : x.toNat < 2 ^ 32 := x.isLt.trans_le (Nat.pow_le_pow_right (by decide) hn)
  rw [BitVec.toNat_or, BitVec.toNat_shiftLeft, BitVec.toNat_setWidth, BitVec.toNat_ofNat,
    Nat.mod_eq_of_lt (by omega : op < 2 ^ 34), Nat.mod_eq_of_lt (by rw [Nat.shiftLeft_eq]; omega),
    Nat.mod_eq_of_lt (by omega : x.toNat < 2 ^ 34), ← Nat.shiftLeft_add_eq_or_of_lt hx, Nat.shiftLeft_eq]

/-- Two adjacent bytes are one 16-bit field, the period's (30_encoding.md R63). -/
theorem bytes_eq_period (hi lo : Byte) :
    hi.setWidth 34 <<< 8 ||| lo.setWidth 34 = (periodOf hi lo).setWidth 34 := by
  apply BitVec.eq_of_toNat_eq
  have := hi.isLt
  have := lo.isLt
  rw [BitVec.toNat_or, BitVec.toNat_shiftLeft, BitVec.toNat_setWidth, BitVec.toNat_setWidth,
    BitVec.toNat_setWidth, periodOf_toNat, Nat.mod_eq_of_lt (by omega : hi.toNat < 2 ^ 34),
    Nat.mod_eq_of_lt (by omega : lo.toNat < 2 ^ 34), Nat.mod_eq_of_lt (by rw [Nat.shiftLeft_eq]; omega),
    ← Nat.shiftLeft_add_eq_or_of_lt lo.isLt, Nat.shiftLeft_eq, Nat.mod_eq_of_lt (by omega)]

theorem encode_setShape_toNat (b : Byte) : (encode (.setShape b)).toNat = 2 ^ 32 + b.toNat :=
  (or_payload_toNat 1 (by decide) b (by decide)).trans (by omega)

theorem encode_setPeriod (hi lo : Byte) :
    encode (.setPeriod hi lo) = 2#34 <<< 32 ||| (periodOf hi lo).setWidth 34 := by
  rw [encode, BitVec.or_assoc, bytes_eq_period]

theorem encode_setPeriod_toNat (hi lo : Byte) :
    (encode (.setPeriod hi lo)).toNat = 2 * 2 ^ 32 + hi.toNat * 256 + lo.toNat := by
  rw [encode_setPeriod, or_payload_toNat 2 (by decide) _ (by decide), periodOf_toNat]
  omega

theorem encode_tick_toNat (c : Cycles) : (encode (.tick c)).toNat = 3 * 2 ^ 32 + c.toNat :=
  or_payload_toNat 3 (by decide) c (by decide)

/-! ### Decoding undoes encoding -/

theorem decode_encode (i : Instr) : decode (encode i) = i := by
  cases i with
  | nop => rfl
  | setShape b =>
    have hw := encode_setShape_toNat b
    have := b.isLt
    rw [decode_of_op1 ((opOf_eq_iff _ (by decide)).mpr (by omega))]
    congr 1
    apply BitVec.eq_of_toNat_eq
    rw [field_toNat, hw]
    omega
  | setPeriod hi lo =>
    have hw := encode_setPeriod_toNat hi lo
    have := hi.isLt
    have := lo.isLt
    rw [decode_of_op2 ((opOf_eq_iff _ (by decide)).mpr (by omega))]
    congr 1
    all_goals
      apply BitVec.eq_of_toNat_eq
      rw [field_toNat, hw]
      omega
  | tick c =>
    have hw := encode_tick_toNat c
    have := c.isLt
    rw [decode_of_op3 ((opOf_eq_iff _ (by decide)).mpr (by omega))]
    congr 1
    apply BitVec.eq_of_toNat_eq
    rw [field_toNat, hw]
    omega

theorem encode_injective {i j : Instr} (h : encode i = encode j) : i = j := by
  rw [← decode_encode i, h, decode_encode]

/-- Bits above `cmd[33]` are 0 in a command's word, so a wider carrier of it decodes the same. -/
theorem decodeTableWord_encode (i : Instr) {nbits : Nat} (h : 34 ≤ nbits) :
    decodeTableWord nbits (encode i).toNat = some i := by
  have hw := (encode i).isLt
  have hle : 2 ^ 34 ≤ 2 ^ nbits := Nat.pow_le_pow_right (by decide) h
  rw [decodeTableWord, decodeBits, Nat.mod_eq_of_lt (hw.trans_le hle), if_pos hw,
    BitVec.ofNat_toNat, BitVec.setWidth_eq, decode_encode]
  rfl

/-! ### Encoding undoes decoding, up to the ignored bits -/

/-- The mask of a field keeps the field, at its place. -/
theorem and_fieldMask (w : CmdWord) (start len : Nat) :
    w &&& (BitVec.allOnes len).setWidth 34 <<< start = (w.extractLsb' start len).setWidth 34 <<< start := by
  ext i hi
  by_cases h : i < start
  · simp [h]
  · simp [h, BitVec.getLsbD_eq_getElem hi, Bool.and_comm,
      show start + (i - start) = i by omega]

theorem and_opMask (w : CmdWord) : w &&& 0x300000000#34 = (opOf w).setWidth 34 <<< 32 :=
  and_fieldMask w 32 2

/-- A word cleared to `OP` and an `n`-bit operand is `OP` above that operand. -/
theorem and_op_or_operand (w : CmdWord) (n : Nat) :
    w &&& (0x300000000#34 ||| (BitVec.allOnes n).setWidth 34) =
      (opOf w).setWidth 34 <<< 32 ||| (w.extractLsb' 0 n).setWidth 34 := by
  rw [BitVec.and_or_distrib_left, and_opMask]
  congr 1
  simpa using and_fieldMask w 0 n

theorem encode_decode (w : CmdWord) : encode (decode w) = canonical w := by
  rcases opOf_cases w with h | h | h | h
  · rw [decode_of_op0 h, canonical, usedBits, if_pos h, and_opMask, h]
    rfl
  · have hw := and_op_or_operand w 8
    rw [h] at hw
    rw [decode_of_op1 h, canonical, usedBits, h]
    exact hw.symm
  · have hw := and_op_or_operand w 16
    rw [h] at hw
    have hfields : periodOf (w.extractLsb' 8 8) (w.extractLsb' 0 8) = w.extractLsb' 0 16 := by
      apply BitVec.eq_of_toNat_eq
      rw [periodOf_toNat, field_toNat, field_toNat, field_toNat]
      omega
    rw [decode_of_op2 h, encode_setPeriod, hfields, canonical, usedBits, h]
    exact hw.symm
  · have hw := and_op_or_operand w 32
    rw [h] at hw
    rw [decode_of_op3 h, canonical, usedBits, h]
    exact hw.symm

theorem canonical_encode (i : Instr) : canonical (encode i) = encode i := by
  rw [← encode_decode, decode_encode]

theorem decode_eq_iff (w w' : CmdWord) : decode w = decode w' ↔ canonical w = canonical w' := by
  rw [← encode_decode, ← encode_decode]
  exact ⟨congrArg encode, encode_injective⟩

/-- Settles O2: decoding undoes encoding, and encoding undoes decoding up to the ignored bits. -/
theorem decodeAndEncodeAgree : Obligations.DecodeAndEncodeAgree :=
  ⟨fun i => ⟨decode_encode i, fun _ => decodeTableWord_encode i⟩, encode_decode, decode_eq_iff⟩

/-! ### The opcode table -/

/-- Settles O3: each row's mask keeps `OP` alone, and the four patterns are its four values. -/
theorem everyWordBelongsToOneRow : Obligations.EveryWordBelongsToOneRow := by
  intro w
  rcases opOf_cases w with h | h | h | h
  · simp [opcodeTable, OpcodeRow.covers, and_opMask, h, decode_of_op0, Instr.mnemonic]
  · simp [opcodeTable, OpcodeRow.covers, and_opMask, h, decode_of_op1, Instr.mnemonic]
  · simp [opcodeTable, OpcodeRow.covers, and_opMask, h, decode_of_op2, Instr.mnemonic]
  · simp [opcodeTable, OpcodeRow.covers, and_opMask, h, decode_of_op3, Instr.mnemonic]

/-! ### The ignored bits -/

/-- `OP` is among the bits that a command reads. -/
theorem usedBits_and_opMask (w : CmdWord) : usedBits w &&& 0x300000000#34 = 0x300000000#34 := by
  unfold usedBits
  split_ifs <;> decide

theorem opOf_eq_of_and_opMask_eq {w w' : CmdWord}
    (h : w' &&& 0x300000000#34 = w &&& 0x300000000#34) : opOf w' = opOf w := by
  have hfield : ∀ x : CmdWord, (x &&& 0x300000000#34).extractLsb' 32 2 = opOf x := by
    intro x
    rw [BitVec.extractLsb'_and]
    exact BitVec.and_allOnes
  rw [← hfield, h, hfield]

/-- Words that agree on the bits the first one's command reads are the same command. -/
theorem decode_eq_of_and_usedBits_eq {w w' : CmdWord} (h : w' &&& usedBits w = w &&& usedBits w) :
    decode w' = decode w := by
  have hop : opOf w' = opOf w := opOf_eq_of_and_opMask_eq <| by
    rw [← usedBits_and_opMask w, ← BitVec.and_assoc, h, BitVec.and_assoc]
  have hused : usedBits w' = usedBits w := by simp only [usedBits, hop]
  rw [decode_eq_iff, canonical, canonical, hused, h]

theorem encode_ignoredBits (i : Instr) : encode i &&& ~~~usedBits (encode i) = 0#34 :=
  calc encode i &&& ~~~usedBits (encode i)
      = canonical (encode i) &&& ~~~usedBits (encode i) := by rw [canonical_encode]
    _ = encode i &&& (usedBits (encode i) &&& ~~~usedBits (encode i)) := by
      rw [canonical, BitVec.and_assoc]
    _ = 0#34 := by simp

/-- Settles O1: ten closed words. -/
theorem specWordsDecodeAsWritten : Obligations.SpecWordsDecodeAsWritten := by
  refine ⟨?_, ?_, ?_, ?_, ?_, ?_, ?_, ?_, ?_, ?_⟩ <;> decide

end Sys2Proof

/-! SUPPORT. Commands and sequences of commands: that they answer, what they keep, and the laws of NOP, SET_SHAPE
and SET_PERIOD (40_configuration.md). -/

namespace Sys2Proof.Machine

/-! ### Every command and every sequence of commands answers -/

theorem exec_total (i : Instr) (s : State) : ∃ t, exec i s = .next t := by
  cases i <;> exact ⟨_, rfl⟩

theorem runCommands_cons {i : Instr} {s t : State} (h : exec i s = .next t) (is : List Instr) :
    runCommands (i :: is) s = runCommands is t := by
  simp [runCommands, h]

theorem runCommands_single (i : Instr) (s : State) : runCommands [i] s = exec i s := by
  obtain ⟨t, ht⟩ := exec_total i s
  rw [runCommands_cons ht, ht, runCommands]

/-- What every command of a sequence keeps, the sequence keeps. -/
theorem runCommands_keeps {P : State → Prop} {is : List Instr}
    (hstep : ∀ i ∈ is, ∀ s t, P s → exec i s = .next t → P t) {s : State} (hs : P s) :
    ∃ t, runCommands is s = .next t ∧ P t := by
  induction is generalizing s with
  | nil => exact ⟨s, rfl, hs⟩
  | cons i is ih =>
    obtain ⟨u, hu⟩ := exec_total i s
    rw [runCommands_cons hu]
    exact ih (fun j hj => hstep j (.tail _ hj)) (hstep i (.head _) s u hs hu)

theorem runCommands_total (is : List Instr) (s : State) : ∃ t, runCommands is s = .next t := by
  obtain ⟨t, ht, -⟩ := runCommands_keeps (P := fun _ => True) (is := is) (fun _ _ _ _ _ _ => trivial)
    (s := s) trivial
  exact ⟨t, ht⟩

/-! ### Words as commands -/

/-- Settles O4: a word's command depends on its used bits alone. -/
theorem everyWordIsACommand : Obligations.EveryWordIsACommand := by
  refine ⟨fun w s => ?_, encode_ignoredBits⟩
  obtain ⟨t, ht⟩ := exec_total (decode w) s
  exact ⟨t, ht, fun w' hw => by rw [decode_eq_of_and_usedBits_eq hw, ht]⟩

/-! ### SET_SHAPE -/

theorem exec_setShape_sentinel (s : State) : exec (.setShape 0xFF#8) s = .next s := rfl

theorem exec_setShape_of_ne {b : Byte} (hb : b ≠ 0xFF#8) (s : State) :
    exec (.setShape b) s = .next (s.restart (shapeOf b)) := by
  rw [exec_setShape, if_neg (by rwa [isSentinel_iff])]

theorem env_zero (sh : ShapeNo) : env sh 0#6 = if attBit sh then 0#5 else 31#5 := by
  cases h : attBit sh <;> simp [env, firstWave, h, BaseWave.entry]

/-- Settles O9: the restart, with LOOP and the first level read off the byte's bits. -/
theorem setShapeRestartsEnvelope : Obligations.SetShapeRestartsEnvelope := by
  intro b s hb
  have hfirst : env (shapeOf b) 0#6 = if b.getLsbD 2 then 0#5 else 31#5 := by
    simp [env_zero, attBit, shapeOf]
  have hloop : loopOf (shapeOf b) = (b.getLsbD 3 && !b.getLsbD 0) := by
    simp [loopOf, contBit, holdBit, shapeOf]
  rw [exec_setShape_of_ne hb, State.restart, hfirst, hloop, shapeOf]

/-- Settles O8: the sentinel is skipped by its whole byte, and 0x0F is another byte. -/
theorem sentinelShapeChangesNothing : Obligations.SentinelShapeChangesNothing :=
  ⟨exec_setShape_sentinel, fun is s => runCommands_cons (exec_setShape_sentinel s) is,
    fun s => ⟨_, exec_setShape_of_ne (by decide) s, rfl, rfl, rfl⟩⟩

/-- The byte counts by its low nibble alone, unless it is the sentinel. -/
theorem exec_setShape_congr {b b' : Byte} (hb : b ≠ 0xFF#8) (hb' : b' ≠ 0xFF#8)
    (h : b.toNat % 16 = b'.toNat % 16) (s : State) : exec (.setShape b) s = exec (.setShape b') s := by
  have hshape : shapeOf b = shapeOf b' := BitVec.eq_of_toNat_eq (by rw [shapeOf_toNat, shapeOf_toNat, h])
  rw [exec_setShape_of_ne hb, exec_setShape_of_ne hb', hshape]

/-- Settles O11: equal low nibbles are one shape number. -/
theorem shapeHighNibbleIgnored : Obligations.ShapeHighNibbleIgnored :=
  fun _ _ s hb hb' h => exec_setShape_congr hb hb' h s

/-- Settles O7: the arm of NOP. -/
theorem nopChangesNothing : Obligations.NopChangesNothing := exec_nop

/-! ### Operands -/

/-- Settles O6: each field is its number, and the shape number is the byte's low nibble. -/
theorem operandsAreUnsignedFields : Obligations.OperandsAreUnsignedFields := by
  refine ⟨fun w => ?_, fun hi lo s => ⟨_, rfl, periodOf_toNat hi lo⟩,
    fun b s hb => ⟨_, exec_setShape_of_ne hb s, shapeOf_toNat b⟩⟩
  rcases opOf_cases w with h | h | h | h
  · simp only [decode_of_op0 h]
  · simp [decode_of_op1 h]
  · simp [decode_of_op2 h, Nat.shiftRight_eq_div_pow]
  · simp [decode_of_op3 h]

/-! ### SET_PERIOD -/

/-- Settles O14: the two commands write disjoint registers. -/
theorem setShapeAndSetPeriodCommute : Obligations.SetShapeAndSetPeriodCommute := by
  intro b hi lo s hb
  refine ⟨(s.setPeriod (periodOf hi lo)).restart (shapeOf b), ?_, ?_⟩
  · rw [runCommands_cons (exec_setPeriod hi lo s), runCommands_single, exec_setShape_of_ne hb]
  · rw [runCommands_cons (exec_setShape_of_ne hb s), runCommands_single, exec_setPeriod]
    rfl

/-! ### Effect and no effect -/

/-- Each command but the two hints changes some state: a restart moves POS off 63, a period is stored over
another one, and a TICK brings an ACC of a whole step length below it. -/
theorem exists_effect {i : Instr} (hnop : i ≠ .nop) (hsentinel : i ≠ .setShape 0xFF#8) :
    ∃ s t : State, exec i s = .next t ∧ t ≠ s := by
  cases i with
  | nop => exact absurd rfl hnop
  | setShape b =>
    have hb : b ≠ 0xFF#8 := fun h => hsentinel (by rw [h])
    refine ⟨State.reset, _, exec_setShape_of_ne hb _, fun h => ?_⟩
    exact absurd (congrArg State.pos h) (by decide : (0#6 : Position) ≠ 63#6)
  | setPeriod hi lo =>
    refine ⟨State.reset.setPeriod (periodOf hi lo + 1#16), _, rfl, fun h => ?_⟩
    have := congrArg State.period h
    simp at this
  | tick c =>
    refine ⟨{ State.reset with acc := 8 }, _, rfl, fun h => ?_⟩
    have hacc : (8 + c.toNat) % 8 = 8 := congrArg State.acc h
    omega

/-- Settles O5: the hints, an effect of every other encoding, and the bytes between 0x10 and the sentinel. -/
theorem hintEncodingsHaveNoEffect : Obligations.HintEncodingsHaveNoEffect := by
  refine ⟨fun s => ⟨exec_nop s, exec_setShape_sentinel s⟩, fun i => exists_effect, fun b s hlow hhigh => ?_⟩
  have hb : b ≠ 0xFF#8 := by rintro rfl; simp at hhigh
  have hnibble : ((b.extractLsb' 0 4).setWidth 8).toNat = b.toNat % 16 := by
    rw [BitVec.toNat_setWidth, ← shapeOf, shapeOf_toNat]
    omega
  have hb' : (b.extractLsb' 0 4).setWidth 8 ≠ 0xFF#8 := fun h => by rw [h] at hnibble; simp at hnibble; omega
  exact ⟨exec_setShape_congr hb hb' (by omega) s, _, exec_setShape_of_ne hb s, rfl⟩

end Sys2Proof.Machine

/-! SUPPORT. The positions a TICK leaves and the sum of their amplitudes: the closed forms of 41_tick.md R110 are
the iterated advances of R103 and the sample-by-sample sum of R104. -/

namespace Sys2Proof.Machine

open Finset (sum_range_add sum_range_succ sum_congr)

/-! ### Advances -/

theorem adv_eq_advBy_one (loop : Bool) (p : Position) : adv loop p = advBy loop p 1 := rfl

theorem adv_iterate (loop : Bool) (p : Position) (n : Nat) : (adv loop)^[n] p = advBy loop p n := by
  induction n with
  | zero => simp
  | succ n ih => rw [Function.iterate_succ_apply', ih, adv_eq_advBy_one, advBy_advBy]

/-- The remainder by 64 is what a 6-bit position keeps anyway. -/
theorem position_and_0x3F (a : Nat) : BitVec.ofNat 6 (a &&& 0x3F) = BitVec.ofNat 6 a := by
  apply BitVec.eq_of_toNat_eq
  simp [and_0x3F]

theorem advBy_looping (p : Position) (n : Nat) : advBy true p n = BitVec.ofNat 6 (p.toNat + n) := by
  rw [advBy, if_pos rfl, position_and_0x3F]

theorem advBy_holding_of_le {p : Position} {n : Nat} (h : p.toNat + n ≤ 63) :
    advBy false p n = BitVec.ofNat 6 (p.toNat + n) := by
  simp [advBy, Nat.min_eq_left h]

theorem advBy_holding_of_ge {p : Position} {n : Nat} (h : 63 ≤ p.toNat + n) : advBy false p n = 63#6 := by
  simp [advBy, Nat.min_eq_right h]

theorem advBy_whole_loops (p : Position) (q : Nat) : advBy true p (64 * q) = p := by
  apply BitVec.eq_of_toNat_eq
  have := p.isLt
  rw [advBy_looping_toNat]
  omega

/-! ### The positions left -/

theorem positionsLeft_eq (loop : Bool) (n : Nat) (p : Position) :
    positionsLeft loop n p = (List.range n).map (advBy loop p) := by
  induction n generalizing p with
  | zero => rfl
  | succ n ih =>
    rw [positionsLeft, ih, List.range_succ_eq_map, List.map_cons, List.map_map, advBy_zero,
      adv_eq_advBy_one]
    congr 2
    funext j
    rw [advBy_advBy, Function.comp, Nat.succ_eq_one_add]

theorem samples_length (s : State) (n : Nat) : (samples s n).length = n := by
  simp [samples, positionsLeft_eq]

/-! ### The sum of the samples -/

theorem sumBelow_eq_sum (f : Nat → Nat) (n : Nat) : sumBelow f n = ∑ j ∈ Finset.range n, f j := by
  induction n with
  | zero => rfl
  | succ n ih => rw [sumBelow, ih, sum_range_succ]

/-- One whole period sums to the same from wherever it starts. -/
theorem sum_period_shift {f : Nat → Nat} {k : Nat} (hf : ∀ j, f (k + j) = f j) (a : Nat) :
    ∑ j ∈ Finset.range k, f (a + j) = ∑ j ∈ Finset.range k, f j := by
  have hleft := sum_range_add f a k
  have hright := sum_range_add f k a
  simp only [hf] at hright
  rw [Nat.add_comm] at hright
  omega

theorem sum_whole_periods {f : Nat → Nat} {k : Nat} (hf : ∀ j, f (k + j) = f j) (q m : Nat) :
    ∑ j ∈ Finset.range (k * q + m), f j = q * (∑ j ∈ Finset.range k, f j) + ∑ j ∈ Finset.range m, f j := by
  induction q with
  | zero => simp
  | succ q ih =>
    rw [show k * (q + 1) + m = k + (k * q + m) by ring, sum_range_add]
    simp only [hf]
    rw [ih]
    ring

theorem loopingSum_eq_sum (p : Params) (sh : ShapeNo) (pos : Position) (n : Nat) :
    loopingSum p sh pos n = ∑ j ∈ Finset.range n, ampAt p sh (advBy true pos j) := by
  have hperiod : ∀ j, BitVec.ofNat 6 (64 + j) = BitVec.ofNat 6 j := fun j => by
    apply BitVec.eq_of_toNat_eq
    simp
  have htable := sum_period_shift (f := fun j => ampAt p sh (BitVec.ofNat 6 j)) (k := 64)
    (fun j => by rw [hperiod]) pos.toNat
  have hloops := sum_whole_periods (f := fun j => ampAt p sh (BitVec.ofNat 6 (pos.toNat + j))) (k := 64)
    (fun j => by rw [Nat.add_left_comm, hperiod]) (n / 64) (n % 64)
  simp only [Nat.div_add_mod] at hloops
  simp only [loopingSum, tableSum, sumBelow_eq_sum, position_and_0x3F, advBy_looping]
  rw [hloops, htable]

theorem holdingSum_eq_sum (p : Params) (sh : ShapeNo) (pos : Position) (n : Nat) :
    holdingSum p sh pos n = ∑ j ∈ Finset.range n, ampAt p sh (advBy false pos j) := by
  have hpos := pos.isLt
  set m := min n (64 - pos.toNat) with hm
  have hclimb : ∑ j ∈ Finset.range m, ampAt p sh (BitVec.ofNat 6 (pos.toNat + j)) =
      ∑ j ∈ Finset.range m, ampAt p sh (advBy false pos j) :=
    sum_congr rfl fun j hj => by
      rw [advBy_holding_of_le (by have := Finset.mem_range.mp hj; omega)]
  have hrest : ∑ j ∈ Finset.range (n - m), ampAt p sh (advBy false pos (m + j)) =
      ∑ _j ∈ Finset.range (n - m), ampAt p sh 63#6 :=
    sum_congr rfl fun j hj => by
      rw [advBy_holding_of_ge (by have := Finset.mem_range.mp hj; omega)]
  have hsplit := sum_range_add (fun j => ampAt p sh (advBy false pos j)) m (n - m)
  rw [Nat.add_sub_cancel' (by omega : m ≤ n)] at hsplit
  rw [hsplit, hrest, ← hclimb, holdingSum, ← hm, sumBelow_eq_sum]
  simp

/-- The closed form of R110 is the sum over the samples one by one (41_tick.md R104). -/
theorem sampleSum_eq_sum (p : Params) (sh : ShapeNo) (loop : Bool) (pos : Position) (n : Nat) :
    sampleSum p sh loop pos n = ∑ j ∈ Finset.range n, ampAt p sh (advBy loop pos j) := by
  cases loop with
  | true => exact loopingSum_eq_sum p sh pos n
  | false => exact holdingSum_eq_sum p sh pos n

theorem sampleSum_eq_samples (s : State) (n : Nat) :
    sampleSum s.params s.shape s.loop s.pos n = ((samples s n).map (amp s.params)).sum := by
  rw [sampleSum_eq_sum, samples, positionsLeft_eq, List.map_map, List.map_map]
  rfl

theorem sampleSum_one (p : Params) (sh : ShapeNo) (loop : Bool) (pos : Position) :
    sampleSum p sh loop pos 1 = ampAt p sh pos := by
  simp [sampleSum_eq_sum]

theorem sampleSum_whole_loops (p : Params) (sh : ShapeNo) (pos : Position) (q : Nat) :
    sampleSum p sh true pos (64 * q) = q * tableSum p sh := by
  simp [sampleSum, loopingSum, sumBelow]

/-- A holding envelope that has reached 63 samples 63 only. -/
theorem sampleSum_finished (p : Params) (sh : ShapeNo) (n : Nat) :
    sampleSum p sh false 63#6 n = n * ampAt p sh 63#6 := by
  rw [sampleSum_eq_sum, sum_congr rfl fun j _ => by rw [advBy_holding_of_ge (by simp)]]
  simp

/-- R100's loop, run statement by statement, ends at the closed forms. -/
theorem repeatAdvance_eq (p : Params) (sh : ShapeNo) (loop : Bool) (n sum : Nat) (pos : Position) :
    repeatAdvance p sh loop n (sum, pos) = (sum + sampleSum p sh loop pos n, advBy loop pos n) := by
  induction n generalizing sum pos with
  | zero => simp [repeatAdvance, sampleSum_eq_sum]
  | succ n ih =>
    rw [repeatAdvance, ih, adv_eq_advBy_one, advBy_advBy, sampleSum_eq_sum, sampleSum_eq_sum,
      Finset.sum_range_succ', advBy_zero]
    simp only [advBy_advBy, Nat.add_comm 1]
    congr 1
    omega

end Sys2Proof.Machine

/-! SUPPORT. `nearest_ge`, from an amplitude back to a level (41_tick.md R107): the lower adjoint of
`k ↦ n * AMP(k)` under a lawful table. -/

namespace Sys2Proof.Machine

theorem ampAt_le (p : Params) (h : Lawful p) (sh : ShapeNo) (pos : Position) : ampAt p sh pos ≤ 65536 :=
  amp_le_ampOne h _

/-- What the search over the 32 levels answers when one of them reaches the sum. -/
theorem nearestGe_spec {p : Params} {sum n : Nat} (h : ∃ k : Level, sum ≤ n * amp p k) :
    sum ≤ n * amp p (nearestGe p sum n) ∧
      ∀ k : Level, k.toNat < (nearestGe p sum n).toNat → n * amp p k < sum := by
  obtain ⟨k, hk⟩ := h
  have hfound : ((List.range 32).find? fun k => decide (sum ≤ n * amp p (BitVec.ofNat 5 k))).isSome :=
    List.find?_isSome.mpr ⟨k.toNat, List.mem_range.mpr k.isLt, by simpa using hk⟩
  obtain ⟨m, hm⟩ := Option.isSome_iff_exists.mp hfound
  obtain ⟨hreach, hrange, hleast⟩ := List.find?_range_eq_some.mp hm
  have hlevel : nearestGe p sum n = BitVec.ofNat 5 m := by rw [nearestGe, hm, Option.getD_some]
  have hm32 : (BitVec.ofNat 5 m).toNat = m :=
    (BitVec.toNat_ofNat m 5).trans (Nat.mod_eq_of_lt (List.mem_range.mp hrange))
  rw [hlevel]
  refine ⟨by simpa using hreach, fun j hj => ?_⟩
  simpa using hleast j.toNat (hm32 ▸ hj)

/-- Under a lawful table level 31 reaches every mean amplitude up to 1. -/
theorem exists_level_ge {p : Params} (h : Lawful p) {sum n : Nat} (hsum : sum ≤ n * 65536) :
    ∃ k : Level, sum ≤ n * amp p k := by
  obtain ⟨-, -, hone, -⟩ := h
  exact ⟨31#5, by rwa [hone]⟩

/-- Settles O20: the search finds a level, level 31 reaching every such sum. -/
theorem nearestGeIsLeastLevel : Obligations.NearestGeIsLeastLevel :=
  fun _ _ _ h _ hsum => nearestGe_spec (exists_level_ge h hsum)

theorem nearestGe_le_iff {p : Params} (h : Lawful p) {sum n : Nat} (hsum : sum ≤ n * 65536) (k : Level) :
    (nearestGe p sum n).toNat ≤ k.toNat ↔ sum ≤ n * amp p k := by
  obtain ⟨hreach, hleast⟩ := nearestGe_spec (exists_level_ge h hsum)
  constructor
  · intro hk
    exact hreach.trans (Nat.mul_le_mul_left n (amp_le_amp h hk))
  · intro hk
    by_contra hlt
    exact absurd (hleast k (Nat.lt_of_not_le hlt)) (Nat.not_lt.mpr hk)

/-- `n` samples of one level average to it. -/
theorem nearestGe_mul_amp {p : Params} (h : Lawful p) (k : Level) {n : Nat} (hn : 1 ≤ n) :
    nearestGe p (n * amp p k) n = k := by
  have hle := nearestGe_le_iff h (sum := n * amp p k) (n := n)
    (Nat.mul_le_mul_left n (amp_le_ampOne h k))
  apply BitVec.eq_of_toNat_eq
  refine Nat.le_antisymm ((hle k).mpr le_rfl) (Nat.le_of_not_lt fun hlt => ?_)
  have hreach := Nat.le_of_mul_le_mul_left ((hle _).mp le_rfl) hn
  exact absurd (amp_lt_amp h hlt) (Nat.not_lt.mpr hreach)

/-- Settles O21: one sample at the table's own point. -/
theorem roundTripAtTablePoints : Obligations.RoundTripAtTablePoints := by
  intro p k h
  simpa using nearestGe_mul_amp h k (n := 1) le_rfl

/-- The mean is what counts, not the number of whole loops it is taken over. -/
theorem nearestGe_scale (p : Params) (sum n : Nat) {q : Nat} (hq : 1 ≤ q) :
    nearestGe p (q * sum) (q * n) = nearestGe p sum n := by
  have h : ∀ a, q * sum ≤ q * n * a ↔ sum ≤ n * a := fun a => by
    rw [Nat.mul_assoc]
    exact Nat.mul_le_mul_left_iff hq
  simp only [nearestGe, h]

/-! ### The level a TICK leaves -/

theorem sampleSum_le {p : Params} (h : Lawful p) (sh : ShapeNo) (loop : Bool) (pos : Position) (n : Nat) :
    sampleSum p sh loop pos n ≤ n * 65536 := by
  rw [sampleSum_eq_sum]
  simpa using Finset.sum_le_card_nsmul (Finset.range n) (fun j => ampAt p sh (advBy loop pos j)) 65536
    fun j _ => ampAt_le p h sh _

@[simp] theorem resample_zero (p : Params) (sh : ShapeNo) (loop : Bool) (pos : Position) :
    resample p sh loop pos 0 = env sh pos := rfl

theorem resample_of_pos {n : Nat} (hn : 1 ≤ n) (p : Params) (sh : ShapeNo) (loop : Bool) (pos : Position) :
    resample p sh loop pos n = nearestGe p (sampleSum p sh loop pos n) n := by
  rw [resample, if_neg (by omega)]

theorem resample_one {p : Params} (h : Lawful p) (sh : ShapeNo) (loop : Bool) (pos : Position) :
    resample p sh loop pos 1 = env sh pos := by
  rw [resample_of_pos le_rfl, sampleSum_one]
  exact roundTripAtTablePoints p _ h

/-- A holding envelope at 63 resamples to its last level, however many advances it makes. -/
theorem resample_finished {p : Params} (h : Lawful p) (sh : ShapeNo) (n : Nat) :
    resample p sh false 63#6 n = env sh 63#6 := by
  rcases Nat.eq_zero_or_pos n with rfl | hn
  · rfl
  · rw [resample_of_pos hn, sampleSum_finished]
    exact nearestGe_mul_amp h _ hn

theorem resample_whole_loops (p : Params) (sh : ShapeNo) (pos : Position) {q : Nat} (hq : 1 ≤ q) :
    resample p sh true pos (64 * q) = nearestGe p (tableSum p sh) 64 := by
  rw [resample_of_pos (by omega), sampleSum_whole_loops, Nat.mul_comm 64, nearestGe_scale p _ _ hq]

end Sys2Proof.Machine

/-! SUPPORT. TICK: its remainder, position and level (41_tick.md R100 to R115), alone and in sequences with the
configuration commands. -/

namespace Sys2Proof.Machine

/-! ### The step length and the division of the cycles -/

theorem stepLength_bounds (s : State) :
    s.params.div ≤ stepLength s ∧ stepLength s ≤ 65535 * s.params.div := by
  have hperiod := s.period.isLt
  exact ⟨Nat.le_mul_of_pos_left _ (by omega), Nat.mul_le_mul_right _ (by omega)⟩

@[simp] theorem State.ticked_ticked (s : State) (a a' : Nat) (p p' : Position) (l l' : Level) :
    (s.ticked a p l).ticked a' p' l' = s.ticked a' p' l' := rfl

@[simp] theorem stepLength_ticked (s : State) (a : Nat) (p : Position) (l : Level) :
    stepLength (s.ticked a p l) = stepLength s := rfl

/-- Cycles counted in two parts, the first part's remainder carried over, make the same whole steps. -/
theorem div_add_mod_add_div (x b len : Nat) : x / len + (x % len + b) / len = (x + b) / len := by
  rcases Nat.eq_zero_or_pos len with rfl | hlen
  · simp
  · conv_rhs => rw [← Nat.div_add_mod x len, Nat.add_assoc, Nat.mul_add_div hlen]

/-- Settles O19: the quotient and the remainder of ACC + C by the step length. -/
theorem tickAccountsForEveryCycle : Obligations.TickAccountsForEveryCycle := by
  intro c s hdiv
  refine ⟨_, advances s c, exec_tick c s, Nat.mod_lt _ (stepLength_pos hdiv), rfl, ?_, ?_⟩
  · exact Nat.div_add_mod' (totalCycles s c) (stepLength s)
  · rw [adv_iterate, State.ticked_pos]

/-- Settles O17: `advBy` in closed form is `adv` iterated. -/
theorem advanceWrapsOrClamps : Obligations.AdvanceWrapsOrClamps := by
  refine ⟨fun p => ⟨adv_looping_toNat p, adv_holding_toNat p⟩, fun c s => ⟨_, exec_tick c s, ?_⟩⟩
  rw [adv_iterate, State.ticked_pos, advances, totalCycles]

/-- Settles O18: the closed forms are what R100's loop ends at. -/
theorem tickRefinesPseudocodeLoop : Obligations.TickRefinesPseudocodeLoop := by
  intro c s
  rw [exec_tick, tickByLoop, repeatAdvance_eq, Nat.zero_add]
  by_cases hn : (s.acc + c.toNat) / stepLength s = 0
  · simp only [State.ticked, advances, totalCycles, hn, resample_zero, advBy_zero, if_true]
  · simp only [State.ticked, advances, totalCycles, resample_of_pos (Nat.pos_of_ne_zero hn), if_neg hn]

/-! ### PERIOD 0 and PERIOD 1 -/

theorem stepLength_period_zero_one (s : State) :
    stepLength (s.setPeriod 0#16) = stepLength (s.setPeriod 1#16) := rfl

/-- A TICK reads PERIOD through the step length alone. -/
theorem exec_tick_setPeriod_zero_one (c : Cycles) (s : State) :
    ∃ t : State, exec (.tick c) (s.setPeriod 0#16) = .next (t.setPeriod 0#16) ∧
      exec (.tick c) (s.setPeriod 1#16) = .next (t.setPeriod 1#16) := by
  refine ⟨s.ticked (totalCycles s c % stepLength (s.setPeriod 1#16))
    (advBy s.loop s.pos (advances (s.setPeriod 1#16) c))
    (resample s.params s.shape s.loop s.pos (advances (s.setPeriod 1#16) c)), ?_, rfl⟩
  rw [exec_tick, advances, stepLength_period_zero_one]
  rfl

/-- Settles O16: a TICK of one step length with the remainder below it makes one advance. -/
theorem stepLengthIsPeriodTimesDivider : Obligations.StepLengthIsPeriodTimesDivider := by
  intro s c hdiv
  obtain ⟨hlow, hhigh⟩ := stepLength_bounds s
  refine ⟨⟨hlow, hhigh, fun h8 => ?_⟩, ⟨_, exec_tick c s, rfl, fun hacc hc => ?_⟩,
    exec_tick_setPeriod_zero_one c s⟩
  · rw [stepLength, h8] at hlow hhigh
    rw [h8]
    exact ⟨hlow, hhigh⟩
  · change s.acc < stepLength s at hacc
    change c.toNat = stepLength s at hc
    have hlen := stepLength_pos hdiv
    have hone : advances s c = 1 := by
      rw [advances, totalCycles, hc, Nat.add_div_right _ hlen, Nat.div_eq_of_lt hacc]
    refine ⟨by rw [State.ticked_pos, hone, adv_eq_advBy_one], ?_⟩
    rw [State.ticked_acc, totalCycles, hc, Nat.add_mod_right, Nat.mod_eq_of_lt hacc]

/-- A command other than SET_PERIOD acts alike on states that differ in PERIOD being 0 or 1. -/
theorem exec_setPeriod_zero_one {i : Instr} (hi : ∀ hi lo, i ≠ .setPeriod hi lo) (s : State) :
    ∃ t : State, exec i (s.setPeriod 0#16) = .next (t.setPeriod 0#16) ∧
      exec i (s.setPeriod 1#16) = .next (t.setPeriod 1#16) := by
  cases i with
  | nop => exact ⟨s, rfl, rfl⟩
  | setShape b =>
    by_cases hb : b = 0xFF#8
    · rw [hb]
      exact ⟨s, exec_setShape_sentinel _, exec_setShape_sentinel _⟩
    · exact ⟨s.restart (shapeOf b), exec_setShape_of_ne hb _, exec_setShape_of_ne hb _⟩
  | setPeriod h l => exact absurd rfl (hi h l)
  | tick c => exact exec_tick_setPeriod_zero_one c s

/-- Settles O13: the two states stay equal but for PERIOD, and a SET_PERIOD makes them one. -/
theorem periodZeroIndistinguishableFromOne : Obligations.PeriodZeroIndistinguishableFromOne := by
  intro is
  induction is with
  | nil => exact fun s => ⟨rfl, _, 1#16, rfl, rfl⟩
  | cons i is ih =>
    intro s
    change levelsAfter (i :: is) (s.setPeriod 0#16) = levelsAfter (i :: is) (s.setPeriod 1#16) ∧
      ∃ (t : State) (p : Period), runCommands (i :: is) (s.setPeriod 0#16) = .next t ∧
        runCommands (i :: is) (s.setPeriod 1#16) = .next (t.setPeriod p)
    by_cases hi : ∃ h l, i = .setPeriod h l
    · obtain ⟨h, l, rfl⟩ := hi
      obtain ⟨t, ht⟩ := runCommands_total is (s.setPeriod (periodOf h l))
      exact ⟨rfl, t, t.period, ht, ht⟩
    · obtain ⟨t, hzero, hone⟩ := exec_setPeriod_zero_one (fun h l he => hi ⟨h, l, he⟩) s
      obtain ⟨hlevels, u, p, huzero, huone⟩ := ih t
      rw [runCommands_cons hzero, runCommands_cons hone]
      refine ⟨?_, u, p, huzero, huone⟩
      simp only [levelsAfter, hzero, hone]
      exact congrArg _ hlevels

/-! ### SET_PERIOD and the next TICK -/

theorem stepLength_setPeriod_periodOf (s : State) (hi lo : Byte) :
    stepLength (s.setPeriod (periodOf hi lo)) = max (hi.toNat * 256 + lo.toNat) 1 * s.params.div := by
  rw [stepLength, State.setPeriod_period, State.setPeriod_params, periodOf_toNat]

/-- Settles O12: the next TICK divides by the step length of the stored period. -/
theorem setPeriodWritesPeriodOnly : Obligations.SetPeriodWritesPeriodOnly := by
  intro hi lo s
  have hperiod : periodOf hi lo = BitVec.ofNat 16 (hi.toNat * 256 + lo.toNat) := by
    rw [← periodOf_toNat, BitVec.ofNat_toNat, BitVec.setWidth_eq]
  refine ⟨?_, rfl, fun c => ?_⟩
  · rw [exec_setPeriod, hperiod]
    rfl
  · have hrun : runCommands [.setPeriod hi lo, .tick c] s =
        exec (.tick c) (s.setPeriod (periodOf hi lo)) := rfl
    refine ⟨_, hrun.trans (exec_tick c _), periodOf_toNat hi lo, ?_, ?_⟩
    · rw [State.ticked_acc, stepLength_setPeriod_periodOf]
      rfl
    · rw [State.ticked_pos, advances, stepLength_setPeriod_periodOf, adv_iterate]
      rfl

/-- Settles O31: with ACC at or above the new step length the quotient is at least 1, whatever C is. -/
theorem loweredPeriodCatchesUp : Obligations.LoweredPeriodCatchesUp := by
  intro hi lo c s u hdiv hu hpending
  obtain rfl : s.setPeriod (periodOf hi lo) = u := by
    rw [exec_setPeriod] at hu
    exact Host.Outcome.next.inj hu
  have hlen := stepLength_pos (s := s.setPeriod (periodOf hi lo)) hdiv
  refine ⟨(Nat.one_le_div_iff hlen).mpr (by omega), _, exec_tick c _, ?_, rfl, Nat.mod_lt _ hlen⟩
  rw [adv_iterate, State.ticked_pos]
  rfl

/-! ### Several TICKs -/

/-- One or more TICKs make the progress of one TICK of all their cycles. -/
theorem runCommands_ticks (c : Cycles) (cs : List Cycles) (s : State) :
    ∃ l, runCommands ((c :: cs).map .tick) s = .next
      (s.ticked ((s.acc + ((c :: cs).map BitVec.toNat).sum) % stepLength s)
        (advBy s.loop s.pos ((s.acc + ((c :: cs).map BitVec.toNat).sum) / stepLength s)) l) := by
  induction cs generalizing c s with
  | nil => exact ⟨_, exec_tick c s⟩
  | cons d cs ih =>
    rw [List.map_cons, runCommands_cons (exec_tick c s)]
    obtain ⟨l, hl⟩ := ih d (s.ticked (totalCycles s c % stepLength s)
      (advBy s.loop s.pos (advances s c)) (resample s.params s.shape s.loop s.pos (advances s c)))
    refine ⟨l, hl.trans ?_⟩
    simp only [State.ticked_ticked, stepLength_ticked, State.ticked_acc, State.ticked_loop, State.ticked_pos,
      advances, totalCycles, advBy_advBy, div_add_mod_add_div, Nat.mod_add_mod, List.map_cons, List.sum_cons,
      Nat.add_assoc]

/-- So a TICK of as many cycles as they have together differs from them in LEVEL at most (41_tick.md R111). -/
theorem runCommands_ticks_eq_tick {cs : List Cycles} (hcs : cs ≠ []) {c : Cycles}
    (hc : c.toNat = (cs.map BitVec.toNat).sum) (s : State) :
    ∃ t u, runCommands (cs.map .tick) s = .next t ∧ exec (.tick c) s = .next u ∧
      u = { t with level := u.level } := by
  obtain ⟨d, ds, rfl⟩ := List.exists_cons_of_ne_nil hcs
  obtain ⟨l, hl⟩ := runCommands_ticks d ds s
  refine ⟨_, _, hl, exec_tick c s, ?_⟩
  rw [advances, totalCycles, hc]
  rfl

/-- Settles O26: `m` equal parts. -/
theorem oversamplingKeepsProgress : Obligations.OversamplingKeepsProgress := by
  intro m a c s hm hc
  have hparts : List.replicate m a ≠ [] := by
    rw [Ne, List.replicate_eq_nil_iff]
    omega
  simpa using runCommands_ticks_eq_tick hparts (by simpa using hc) s

/-- Settles O27: two parts; on a falling ramp two TICKs of one position each end at the second one's level, and one
TICK over both ends at their mean, rounded to the louder. -/
theorem splitTicksAgreeOnProgress : Obligations.SplitTicksAgreeOnProgress := by
  refine ⟨fun a b c s hc => ?_, 8#32, 8#32, 16#32,
    { State.reset with shape := 8#4, loop := true, pos := 0#6 }, _, _,
    by decide, by decide, rfl, rfl, by decide +kernel⟩
  exact runCommands_ticks_eq_tick (cs := [a, b]) (by simp) (by simpa using hc) s

/-- Settles O10: a restart leaves nothing of what TICKs write. -/
theorem repeatedShapeUndoesTicks : Obligations.RepeatedShapeUndoesTicks := by
  refine ⟨fun b s hb => ⟨_, exec_setShape_of_ne hb s, rfl, rfl, rfl, rfl⟩, fun b cs s hb => ?_⟩
  have hrestart : ∀ i ∈ cs.map Instr.tick, ∀ u v : State,
      u.restart (shapeOf b) = s.restart (shapeOf b) → exec i u = .next v →
      v.restart (shapeOf b) = s.restart (shapeOf b) := by
    intro i hi u v hu hv
    obtain ⟨c, -, rfl⟩ := List.mem_map.mp hi
    cases hv
    exact hu
  obtain ⟨t, ht, hkept⟩ := runCommands_keeps (P := fun u => u.restart (shapeOf b) = s.restart (shapeOf b))
    hrestart (s := s.restart (shapeOf b)) rfl
  rw [List.cons_append, runCommands_cons (exec_setShape_of_ne hb s), runCommands_append ht,
    runCommands_single, exec_setShape_of_ne hb, exec_setShape_of_ne hb, hkept]

/-- Settles O15: the configuration commands write what they wrote before; two TICKs of 4 cycles of the 8 that one
position lasts leave 4 cycles and then none. -/
theorem configurationIsIdempotent : Obligations.ConfigurationIsIdempotent := by
  refine ⟨fun i s hi => ?_, 4#32, State.reset, _, _, by decide, rfl, rfl, by decide +kernel⟩
  cases i with
  | nop => rfl
  | setShape b =>
    by_cases hb : b = 0xFF#8
    · rw [hb, runCommands_cons (exec_setShape_sentinel s), runCommands_single]
    · rw [runCommands_cons (exec_setShape_of_ne hb s), runCommands_single, exec_setShape_of_ne hb,
        exec_setShape_of_ne hb]
      rfl
  | setPeriod h l => rfl
  | tick c => exact absurd rfl (hi c)

end Sys2Proof.Machine

/-! SUPPORT. What a TICK's samples say of its level, the cycle-by-cycle view (41_tick.md R112), the shape table
replayed step by step (R114), and the widths of TICK's quantities (R115). -/

namespace Sys2Proof.Machine

/-! ### The level and the samples -/

/-- Settles O22: LEVEL is `resample`, case by case of its number of advances. -/
theorem tickLevelIsLouderRoundedMean : Obligations.TickLevelIsLouderRoundedMean := by
  intro c s h
  refine ⟨_, exec_tick c s, rfl, fun hn => ?_, fun hn => ?_, fun hn => ?_⟩
  · rw [State.ticked_level, State.ticked_pos, hn, resample_zero, advBy_zero]
    exact ⟨rfl, rfl⟩
  · rw [State.ticked_level, resample_of_pos hn, ← sampleSum_eq_samples]
    exact nearestGeIsLeastLevel _ _ _ h hn (sampleSum_le h _ _ _ _)
  · rw [State.ticked_level, hn, resample_one h]

/-- Settles O29: `n` times the least amplitude stays at or below the sum, `n` times the greatest reaches it. -/
theorem levelWithinSampledLevels : Obligations.LevelWithinSampledLevels := by
  intro c s least greatest h hn hbounds
  refine ⟨_, exec_tick c s, ?_⟩
  rw [State.ticked_level, resample_of_pos hn]
  have hsum := sampleSum_le h s.shape s.loop s.pos (advances s c)
  have hge : advances s c * amp s.params least ≤ sampleSum s.params s.shape s.loop s.pos (advances s c) := by
    rw [sampleSum_eq_samples]
    simpa [samples_length] using List.card_nsmul_le_sum ((samples s (advances s c)).map (amp s.params))
      (amp s.params least) (List.forall_mem_map.mpr fun l hl => amp_le_amp h (hbounds l hl).1)
  have hle : sampleSum s.params s.shape s.loop s.pos (advances s c) ≤
      advances s c * amp s.params greatest := by
    rw [sampleSum_eq_samples]
    simpa [samples_length] using List.sum_le_card_nsmul ((samples s (advances s c)).map (amp s.params))
      (amp s.params greatest) (List.forall_mem_map.mpr fun l hl => amp_le_amp h (hbounds l hl).2)
  refine ⟨?_, (nearestGe_le_iff h hsum greatest).mpr hle⟩
  have hreach := hge.trans ((nearestGe_le_iff h hsum _).mp le_rfl)
  refine Nat.le_of_not_lt fun hlt => ?_
  exact absurd (amp_lt_amp h hlt) (Nat.not_lt.mpr (Nat.le_of_mul_le_mul_left hreach hn))

/-- Settles O23: vector T6, evaluated. -/
theorem levelsAverageInLinearAmplitude : Obligations.LevelsAverageInLinearAmplitude :=
  ⟨by decide, _, rfl, by decide +kernel, by decide⟩

/-- The tables of the looping shapes hold each level twice. -/
theorem tableSum_looping : ∀ sh : ShapeNo, loopOf sh = true → tableSum defaultParams sh = 1475464 := by
  decide +kernel

/-- Settles O25: whole loops cancel in the position and in the mean. -/
theorem wholeLoopsReturnToPosition : Obligations.WholeLoopsReturnToPosition := by
  refine ⟨fun c s q hloop hq hn => ⟨_, exec_tick c s, ?_, ?_⟩, tableSum_looping⟩
  · rw [State.ticked_pos, hn, hloop, advBy_whole_loops]
  · rw [State.ticked_level, hn, hloop, resample_whole_loops _ _ _ hq]

/-! ### The cycle-by-cycle view -/

theorem samples_succ (s : State) (n : Nat) :
    samples s (n + 1) = samples s n ++ [env s.shape (advBy s.loop s.pos n)] := by
  simp [samples, positionsLeft_eq, List.range_succ]

theorem cycleSteps_succ (len : Nat) (sh : ShapeNo) (loop : Bool) (k : Nat) (v : CycleView) :
    cycleSteps len sh loop (k + 1) v = cycleStep len sh loop (cycleSteps len sh loop k v) := by
  induction k generalizing v with
  | zero => rfl
  | succ k ih => rw [cycleSteps, ih, cycleSteps]

/-- After `k` single cycles: the remainder, the position and the samples of `(ACC + k) div S` whole steps. -/
theorem cycleSteps_eq (s : State) (h : s.acc < stepLength s) (k : Nat) :
    cycleSteps (stepLength s) s.shape s.loop k ⟨s.acc, s.pos, []⟩ =
      ⟨(s.acc + k) % stepLength s, advBy s.loop s.pos ((s.acc + k) / stepLength s),
        samples s ((s.acc + k) / stepLength s)⟩ := by
  have hlen : 0 < stepLength s := by omega
  induction k with
  | zero => simp [cycleSteps, Nat.mod_eq_of_lt h, Nat.div_eq_of_lt h, samples, positionsLeft]
  | succ k ih =>
    rw [cycleSteps_succ, ih, cycleStep, ← Nat.add_assoc]
    have hmod := Nat.mod_lt (s.acc + k) hlen
    have hsplit := Nat.mod_add_div (s.acc + k) (stepLength s)
    by_cases hwhole : (s.acc + k) % stepLength s + 1 = stepLength s
    · obtain ⟨hdiv, hrem⟩ := (Nat.div_mod_unique hlen).mpr
        ⟨(by rw [Nat.mul_succ]; omega :
          0 + stepLength s * ((s.acc + k) / stepLength s + 1) = s.acc + k + 1), hlen⟩
      rw [if_pos hwhole, hdiv, hrem, samples_succ, adv_eq_advBy_one, advBy_advBy]
    · obtain ⟨hdiv, hrem⟩ := (Nat.div_mod_unique hlen).mpr
        ⟨(by omega : (s.acc + k) % stepLength s + 1 + stepLength s * ((s.acc + k) / stepLength s) =
          s.acc + k + 1), by omega⟩
      rw [if_neg hwhole, hdiv, hrem]

/-- Settles O28: the view after C single cycles. -/
theorem tickMatchesCycleByCycleView : Obligations.TickMatchesCycleByCycleView :=
  fun c s h => ⟨_, exec_tick c s, cycleSteps_eq s h c.toNat⟩

/-! ### TICKs of one step each -/

/-- A TICK of exactly one step, with no remainder before it, leaves the level of the position it leaves. -/
theorem exec_tick_one_step {c : Cycles} {s : State} (h : Lawful s.params) (hacc : s.acc = 0)
    (hc : c.toNat = stepLength s) :
    exec (.tick c) s = .next (s.ticked 0 (adv s.loop s.pos) (env s.shape s.pos)) := by
  have hlen := stepLength_pos h.1
  have htotal : totalCycles s c = stepLength s := by rw [totalCycles, hacc, hc, Nat.zero_add]
  have hone : advances s c = 1 := by rw [advances, htotal, Nat.div_self hlen]
  rw [exec_tick, hone, htotal, Nat.mod_self, resample_one h, adv_eq_advBy_one]

theorem runCommands_one_step_ticks {c : Cycles} {s : State} (h : Lawful s.params) (hacc : s.acc = 0)
    (hc : c.toNat = stepLength s) (k : Nat) :
    runCommands (List.replicate (k + 1) (.tick c)) s = .next
      (s.ticked 0 (advBy s.loop s.pos (k + 1)) (env s.shape (advBy s.loop s.pos k))) := by
  induction k generalizing s with
  | zero => rw [List.replicate_one, runCommands_single, exec_tick_one_step h hacc hc, advBy_zero]; rfl
  | succ k ih =>
    rw [List.replicate_succ, runCommands_cons (exec_tick_one_step h hacc hc),
      ih (s := s.ticked 0 (adv s.loop s.pos) (env s.shape s.pos)) h rfl hc]
    simp only [State.ticked_ticked, State.ticked_loop, State.ticked_pos, State.ticked_shape, adv_eq_advBy_one,
      advBy_advBy, Nat.add_comm 1]

/-- Settles O30: the `k`-th such TICK after the restart leaves position `k` of the table. -/
theorem oneStepTicksReproduceTable : Obligations.OneStepTicksReproduceTable := by
  intro b c s h hb hc
  have hrun : ∀ k, ∃ t, runCommands (.setShape b :: List.replicate (k + 1) (.tick c)) s = .next t ∧
      t.level = env (shapeOf b) (advBy (loopOf (shapeOf b)) 0#6 k) := fun k =>
    ⟨_, (runCommands_cons (exec_setShape_of_ne hb s) _).trans
      (runCommands_one_step_ticks (s := s.restart (shapeOf b)) h rfl hc k), rfl⟩
  refine ⟨fun k hk => ?_, ?_⟩
  · obtain ⟨t, ht, hlevel⟩ := hrun k
    refine ⟨t, ht, hlevel.trans ?_⟩
    have hpos : advBy (loopOf (shapeOf b)) 0#6 k = BitVec.ofNat 6 k := by
      cases loopOf (shapeOf b)
      · rw [advBy_holding_of_le (by simp; omega)]; simp
      · rw [advBy_looping]; simp
    rw [hpos, shapeOf]
  · obtain ⟨t, ht, hlevel⟩ := hrun 64
    refine ⟨t, ht, hlevel.trans ?_⟩
    change env (shapeOf b) _ = env (shapeOf b) (if loopOf (shapeOf b) = true then 0#6 else 63#6)
    cases loopOf (shapeOf b) <;> rfl

/-! ### Widths -/

/-- Settles O32: each width from the bounds of the operands of the operation that makes the quantity. -/
theorem tickQuantitiesFitTheirWidths : Obligations.TickQuantitiesFitTheirWidths := by
  rintro c s ⟨h, -, hacc⟩ hdiv n sum
  have hc := c.isLt
  have htotal : totalCycles s c < 2 ^ 33 := by
    rw [totalCycles]
    omega
  have hn : n < 2 ^ 33 := (Nat.div_le_self _ _).trans_lt htotal
  have hsum : sum ≤ n * 65536 := sampleSum_le h _ _ _ _
  have hproduct : ∀ k : Level, n * amp s.params k ≤ n * 65536 :=
    fun k => Nat.mul_le_mul_left n (amp_le_ampOne h k)
  have hlen : stepLength s < 2 ^ (16 + Nat.clog 2 s.params.div) := by
    have hperiod := s.period.isLt
    have hpow := Nat.le_pow_clog (b := 2) (by decide) s.params.div
    rw [pow_add, stepLength]
    exact Nat.mul_lt_mul_of_lt_of_le (by omega) hpow (by positivity)
  refine ⟨hlen, htotal, hn, hsum, by omega, fun k => ?_, fun h8 => ?_⟩
  · have := hproduct k
    omega
  · obtain ⟨hlow, hhigh⟩ := stepLength_bounds s
    rw [h8] at hlow hhigh
    have hn8 : n < 2 ^ 30 := by
      have : n ≤ totalCycles s c / 8 := Nat.div_le_div_left hlow (by decide)
      omega
    refine ⟨by omega, hn8, by omega, fun k => ?_⟩
    have := hproduct k
    omega

/-! ### The order of commands -/

/-- A state in which each swap of 70_reset_and_hazards.md R173 shows: a falling looping ramp at its start. -/
def rampStart : State := { State.reset with period := 1#16, shape := 8#4, loop := true, pos := 0#6, level := 31#5 }

/-- Settles O33: each of the six swaps, evaluated on `rampStart`. -/
theorem orderOfCommandsMatters : Obligations.OrderOfCommandsMatters := by
  refine ⟨rampStart, by decide, fun xs ys hmem => ?_⟩
  simp only [List.mem_cons, Prod.mk.injEq, List.not_mem_nil, or_false] at hmem
  rcases hmem with ⟨rfl, rfl⟩ | ⟨rfl, rfl⟩ | ⟨rfl, rfl⟩ | ⟨rfl, rfl⟩ | ⟨rfl, rfl⟩ | ⟨rfl, rfl⟩
  all_goals exact ⟨_, _, rfl, rfl, by decide +kernel⟩

end Sys2Proof.Machine

/-! SUPPORT. What every command and every rising edge keeps: the parameters, the invariants, a finished holding
envelope, and each register but for its writers (10_state.md R20; 41_tick.md R109; 60_exceptions.md R130). -/

namespace Sys2Proof.Machine

/-! ### Each edge, by its guards -/

theorem step_of_rst {s : State} (hr : s.pinsNow.rst = true) : step s = .next s.nextEdge.applyReset := by
  simp [step, State.edge, hr]

theorem step_of_valid {s : State} (hr : s.pinsNow.rst = false) (hf : s.flight = none)
    (hv : s.pinsNow.valid = true) : step s = .next (s.nextEdge.accept s.pinsNow.cmd) := by
  simp [step, State.edge, hr, hf, hv]

theorem step_of_idle {s : State} (hr : s.pinsNow.rst = false) (hf : s.flight = none)
    (hv : s.pinsNow.valid = false) : step s = .next s.nextEdge := by
  simp [step, State.edge, hr, hf, hv]

theorem step_of_last {s : State} {w : CmdWord} (hr : s.pinsNow.rst = false) (hf : s.flight = some ⟨w, 0⟩) :
    step s = exec (decode w) s.nextEdge.release := by
  simp [step, State.edge, hr, hf]

theorem step_of_waiting {s : State} {w : CmdWord} {k : Nat} (hr : s.pinsNow.rst = false)
    (hf : s.flight = some ⟨w, k + 1⟩) : step s = .next (s.nextEdge.await w k) := by
  simp [step, State.edge, hr, hf]

/-- What every kind of edge keeps, every edge keeps: it answers a state with the property. -/
theorem step_keeps {P : State → Prop} {s : State}
    (hreset : s.pinsNow.rst = true → P s.nextEdge.applyReset)
    (haccept : P (s.nextEdge.accept s.pinsNow.cmd)) (hidle : P s.nextEdge)
    (hrun : ∀ w t, s.pinsNow.rst = false → s.flight = some ⟨w, 0⟩ →
      exec (decode w) s.nextEdge.release = .next t → P t)
    (hwait : ∀ w k, P (s.nextEdge.await w k)) : ∃ t, step s = .next t ∧ P t := by
  rcases step_cases rfl with ⟨hr, hs⟩ | ⟨-, -, -, hs⟩ | ⟨-, -, -, hs⟩ | ⟨w, hr, hf, hs⟩ | ⟨w, k, -, -, hs⟩
  · exact ⟨_, hs, hreset hr⟩
  · exact ⟨_, hs, haccept⟩
  · exact ⟨_, hs, hidle⟩
  · obtain ⟨t, ht⟩ := exec_total (decode w) s.nextEdge.release
    exact ⟨t, hs.trans ht, hrun w t hr hf ht⟩
  · exact ⟨_, hs, hwait w k⟩

/-- Settles O37: each kind of edge keeps the parameters, and so does every command. -/
theorem nothingWritesTheRoms : Obligations.NothingWritesTheRoms := by
  refine ⟨fun i s => ?_, fun s => ?_⟩
  · obtain ⟨t, ht⟩ := exec_total i s
    exact ⟨t, ht, (exec_keeps ht).1⟩
  · exact step_keeps (fun _ => rfl) rfl rfl (fun _ _ _ _ ht => (exec_keeps ht).1) fun _ _ => rfl

theorem step_total (s : State) : ∃ t, step s = .next t := by
  obtain ⟨t, ht, -⟩ := nothingWritesTheRoms.2 s
  exact ⟨t, ht⟩

theorem runEdges_succ {s t : State} (h : step s = .next t) (k : Nat) : runEdges (k + 1) s = runEdges k t := by
  simp [runEdges, h]

/-- Settles O42: every command and every edge answers, so every number of them does. -/
theorem blockNeverStops : Obligations.BlockNeverStops := by
  refine ⟨runCommands_total, fun k => ?_⟩
  induction k with
  | zero => exact fun s => ⟨s, rfl⟩
  | succ k ih =>
    intro s
    obtain ⟨t, ht⟩ := step_total s
    rw [runEdges_succ ht]
    exact ih t

/-! ### The invariants -/

theorem exec_keeps_inv {i : Instr} {s t : State} (hs : Inv s) (ht : exec i s = .next t) : Inv t := by
  obtain ⟨h, hloop, hacc⟩ := hs
  cases i with
  | nop => cases ht; exact ⟨h, hloop, hacc⟩
  | setShape b =>
    by_cases hb : b = 0xFF#8
    · rw [hb] at ht
      cases ht
      exact ⟨h, hloop, hacc⟩
    · rw [exec_setShape_of_ne hb] at ht
      cases ht
      exact ⟨h, rfl, Nat.mul_pos (by decide) h.1⟩
  | setPeriod hi lo => cases ht; exact ⟨h, hloop, hacc⟩
  | tick c =>
    cases ht
    exact ⟨h, hloop, (Nat.mod_lt _ (stepLength_pos h.1)).trans_le (stepLength_bounds s).2⟩

/-- Settles O41: only a reset and a completing command write what the invariants speak of. -/
theorem everyStepKeepsInvariants : Obligations.EveryStepKeepsInvariants := by
  intro s hs
  have ⟨h, _, _⟩ := hs
  exact step_keeps (fun _ => ⟨h, (by decide : false = loopOf 0#4), Nat.mul_pos (by decide) h.1⟩) hs hs
    (fun _ _ _ _ ht => exec_keeps_inv (s := s.nextEdge.release) hs ht) fun _ _ => hs

/-- Settles O39: the three clauses of the invariant at the reset values. -/
theorem resetStateIsSafe : Obligations.ResetStateIsSafe := ⟨lawful_reset_params, by decide, by decide⟩

/-! ### A finished holding envelope -/

/-- `t` stands where a holding envelope finished in `s` does: at 63, the shape the same, and at the shape's last
level if `s` is. -/
structure StaysFinished (s t : State) : Prop where
  params : t.params = s.params
  pos : t.pos = 63#6
  shape : t.shape = s.shape
  loop : t.loop = false
  level : Lawful s.params → s.level = env s.shape 63#6 → t.level = env s.shape 63#6

theorem staysFinished_self {s : State} (hloop : s.loop = false) (hpos : s.pos = 63#6) : StaysFinished s s :=
  ⟨rfl, hpos, rfl, hloop, fun _ h => h⟩

/-- A TICK leaves a finished holding envelope finished, at its last level whatever LEVEL was. -/
theorem StaysFinished.exec_tick {s t u : State} (ht : StaysFinished s t) {c : Cycles}
    (hu : exec (.tick c) t = .next u) :
    StaysFinished s u ∧ (Lawful s.params → u.level = env s.shape 63#6) := by
  cases hu
  have hlevel : Lawful s.params →
      resample t.params t.shape t.loop t.pos (advances t c) = env s.shape 63#6 := fun h => by
    rw [ht.params, ht.shape, ht.loop, ht.pos, resample_finished h]
  refine ⟨⟨ht.params, ?_, ht.shape, ht.loop, fun h _ => hlevel h⟩, hlevel⟩
  rw [State.ticked_pos, ht.loop, ht.pos, advBy_holding_of_ge (by simp)]

theorem StaysFinished.exec {s t u : State} (ht : StaysFinished s t) {i : Instr}
    (hi : ∀ b, i = .setShape b → b = 0xFF#8) (hu : Machine.exec i t = .next u) : StaysFinished s u := by
  cases i with
  | nop => cases hu; exact ht
  | setShape b =>
    rw [hi b rfl] at hu
    cases hu
    exact ht
  | setPeriod h l => cases hu; exact ⟨ht.params, ht.pos, ht.shape, ht.loop, ht.level⟩
  | tick c => exact (ht.exec_tick hu).1

theorem StaysFinished.runCommands {s t : State} (ht : StaysFinished s t) {is : List Instr}
    (his : ∀ b, Instr.setShape b ∈ is → b = 0xFF#8) :
    ∃ u, Machine.runCommands is t = .next u ∧ StaysFinished s u :=
  runCommands_keeps (fun _ hi _ _ hv hw => hv.exec (fun b hb => his b (hb ▸ hi)) hw) ht

theorem StaysFinished.step {s : State} (hs : StaysFinished s s) (hr : s.pinsNow.rst = false)
    (hf : ∀ w b, s.flight = some ⟨w, 0⟩ → decode w = .setShape b → b = 0xFF#8) :
    ∃ t, Machine.step s = .next t ∧ StaysFinished s t := by
  have hsame : StaysFinished s s.nextEdge.release := ⟨rfl, hs.pos, rfl, hs.loop, fun _ h => h⟩
  exact step_keeps (fun h => absurd (hr.symm.trans h) (by decide))
    ⟨rfl, hs.pos, rfl, hs.loop, fun _ h => h⟩ ⟨rfl, hs.pos, rfl, hs.loop, fun _ h => h⟩
    (fun w _ _ hw ht => hsame.exec (fun b hb => hf w b hw hb) ht)
    fun _ _ => ⟨rfl, hs.pos, rfl, hs.loop, fun _ h => h⟩

/-- The last level of each holding shape (10_state.md R31). -/
theorem env_holding_63 :
    ∀ sh : ShapeNo, loopOf sh = false → env sh 63#6 = if sh = 11#4 ∨ sh = 13#4 then 31#5 else 0#5 := by
  decide

/-- Settles O24: commands, then a last TICK, then one edge, each keep `StaysFinished`. -/
theorem holdingEnvelopeStaysFinished : Obligations.HoldingEnvelopeStaysFinished := by
  refine ⟨fun is s hloop hpos his => ?_, fun is c s h hloop hpos his => ?_, fun s hloop hpos hr hf => ?_,
    env_holding_63, by rw [adv_iterate]; rfl⟩
  · obtain ⟨t, hrun, ht⟩ := (staysFinished_self hloop hpos).runCommands his
    exact ⟨t, hrun, ht.pos, ht.shape, ht.loop, ht.level⟩
  · obtain ⟨t, hrun, ht⟩ := (staysFinished_self hloop hpos).runCommands his
    obtain ⟨u, hu⟩ := exec_total (.tick c) t
    obtain ⟨hfin, hlevel⟩ := ht.exec_tick hu
    exact ⟨u, by rw [runCommands_append hrun, runCommands_single, hu], hfin.pos, hfin.shape, hfin.loop,
      hlevel h⟩
  · obtain ⟨t, hstep, ht⟩ := (staysFinished_self hloop hpos).step hr hf
    exact ⟨t, hstep, ht.pos, ht.shape, ht.loop, ht.level⟩

/-- Settles O40: the reset state is a finished holding envelope of shape 0, whose last level is 0. -/
theorem resetEnvelopeStaysSilent : Obligations.ResetEnvelopeStaysSilent := by
  intro is s h his
  obtain ⟨t, hrun, ht⟩ := (staysFinished_self (s := s.applyReset) rfl rfl).runCommands his
  have hlast : env 0#4 63#6 = 0#5 := by decide
  exact ⟨t, hrun, ht.pos, (ht.level h hlast.symm).trans hlast, ht.shape, ht.loop⟩

/-! ### Who writes what -/

/-- The writers of each register (10_state.md R20), for one command. -/
theorem exec_writes {i : Instr} {s t : State} (h : exec i s = .next t) :
    (t.period ≠ s.period → ∃ hi lo, i = .setPeriod hi lo) ∧
    (t.shape ≠ s.shape ∨ t.loop ≠ s.loop → ∃ b, i = .setShape b ∧ b ≠ 0xFF#8) ∧
    (t.pos ≠ s.pos ∨ t.acc ≠ s.acc ∨ t.level ≠ s.level →
      (∃ b, i = .setShape b ∧ b ≠ 0xFF#8) ∨ ∃ c, i = .tick c) := by
  cases i with
  | nop => cases h; simp
  | setShape b =>
    by_cases hb : b = 0xFF#8
    · rw [hb] at h
      cases h
      simp
    · rw [exec_setShape_of_ne hb] at h
      cases h
      exact ⟨fun hne => absurd rfl hne, fun _ => ⟨b, rfl, hb⟩, fun _ => .inl ⟨b, rfl, hb⟩⟩
  | setPeriod hi lo => cases h; simp
  | tick c => cases h; simp

/-- Settles O43: an edge writes registers only when it runs a command. -/
theorem registersWrittenOnlyByTheirCommands : Obligations.RegistersWrittenOnlyByTheirCommands := by
  intro s t hstep hr
  rcases step_cases hstep with
    ⟨hrst, -⟩ | ⟨-, -, -, ho⟩ | ⟨-, -, -, ho⟩ | ⟨w, -, hf, ho⟩ | ⟨w, k, -, -, ho⟩
  case inl => exact absurd (hr.symm.trans hrst) (by decide)
  case inr.inr.inr.inl =>
    obtain ⟨hperiod, hshape, hrest⟩ := exec_writes ho.symm
    refine ⟨fun hne => ?_, fun hne => ?_, fun hne => ⟨w, hf, hrest hne⟩⟩
    · obtain ⟨hi, lo, hd⟩ := hperiod hne
      exact ⟨w, hi, lo, hf, hd⟩
    · obtain ⟨b, hd⟩ := hshape hne
      exact ⟨w, b, hf, hd⟩
  all_goals
    cases ho
    simp

end Sys2Proof.Machine

/-! SUPPORT. The clocked port: each edge's state written out, a command from acceptance to completion, whole
programs on the pins, and what the host reads of them (10_state.md R40; 20_memory.md R53, R54;
70_reset_and_hazards.md R152, R170). -/

namespace Sys2Proof.Machine

/-! ### Single edges -/

/-- Settles O45: `rst` is looked at before the handshake. -/
theorem resetEdgeWins : Obligations.ResetEdgeWins := by
  intro s hr
  refine ⟨by simp [State.cmdReady, hr], _, step_of_rst hr, rfl, ?_⟩
  simp [State.cmdReady]

theorem waitOf_nextEdge (i : Instr) (s : State) : waitOf i s.nextEdge = waitOf i s := by
  cases i <;> rfl

/-- Settles O46: the two edges of an idle block. -/
theorem idleBlockAcceptsOrRests : Obligations.IdleBlockAcceptsOrRests := by
  intro s hr hf
  refine ⟨by simp [State.cmdReady, hr, hf], fun hv => ?_, fun hv => step_of_idle hr hf hv⟩
  rw [step_of_valid hr hf hv, State.accept, waitOf_nextEdge]
  rfl

theorem cmdReady_of_flight {s : State} {f : InFlight} (hf : s.flight = some f) : s.cmdReady = false := by
  simp [State.cmdReady, hf]

/-- Settles O47: the two edges of a block in flight. -/
theorem busyBlockShowsOldLevel : Obligations.BusyBlockShowsOldLevel := by
  refine fun s w k hf => ⟨cmdReady_of_flight hf, fun hr => ⟨fun j hk => ?_, fun hk => ?_⟩⟩
  · rw [hk] at hf
    exact step_of_waiting hr hf
  · rw [hk] at hf
    exact step_of_last hr hf

theorem decode_of_decodeTableWord {nbits w : Nat} {i : Instr} (h : decodeTableWord nbits w = some i) :
    decode (BitVec.ofNat 34 (w % 2 ^ nbits)) = i := by
  unfold decodeTableWord decodeBits at h
  split at h
  · exact Option.some.inj h
  · cases h

/-- Settles O44: the last edge, for a word accepted and for a word placed. -/
theorem stepRunsDecodedCommand : Obligations.StepRunsDecodedCommand := by
  refine ⟨fun s w i hr hf hd => ?_, fun s nbits w i h => ?_⟩
  · rw [step_of_last hr hf, hd]
    rfl
  · rw [State.withFetchWord, step_of_last rfl rfl, decode_of_decodeTableWord h]
    rfl

/-! ### A command from acceptance to completion -/

/-- No reset comes at the first of the edges ahead. -/
theorem pinsNow_rst_of_take {s : State} {k : Nat} (h : ∀ p ∈ s.pins.take (k + 1), p.rst = false) :
    s.pinsNow.rst = false := by
  cases hp : s.pins with
  | nil => simp [State.pinsNow, hp, Pins.quiet]
  | cons p ps =>
    rw [State.pinsNow, hp]
    exact h p (by simp [hp])

theorem rst_of_mem_take_tail {ps : List Pins} {k : Nat} (h : ∀ p ∈ ps.take (k + 1), p.rst = false) :
    ∀ p ∈ ps.tail.take k, p.rst = false := by
  cases ps with
  | nil => simp
  | cons p ps => exact fun q hq => h q (.tail _ hq)

/-- A command in flight waits, every register as it was, as long as edges of its wait remain. -/
theorem runEdges_waiting {w : CmdWord} {k n : Nat} {s : State} (hf : s.flight = some ⟨w, n⟩) (hk : k ≤ n)
    (hrst : ∀ p ∈ s.pins.take k, p.rst = false) :
    runEdges k s = .next { s with flight := some ⟨w, n - k⟩, pins := s.pins.drop k } := by
  induction k generalizing n s with
  | zero => rw [Nat.sub_zero, ← hf]; rfl
  | succ k ih =>
    obtain ⟨m, rfl⟩ : ∃ m, n = m + 1 := ⟨n - 1, by omega⟩
    rw [runEdges_succ (step_of_waiting (pinsNow_rst_of_take hrst) hf),
      ih (s := s.nextEdge.await w m) rfl (by omega) (rst_of_mem_take_tail hrst)]
    simp [State.await, State.nextEdge]

/-- At the edge after its wait the command runs, on the registers as they were. -/
theorem runEdges_completes {w : CmdWord} {n : Nat} {s : State} (hf : s.flight = some ⟨w, n⟩)
    (hrst : ∀ p ∈ s.pins.take (n + 1), p.rst = false) :
    runEdges (n + 1) s = exec (decode w) { s with flight := none, pins := s.pins.drop (n + 1) } := by
  induction n generalizing s with
  | zero =>
    obtain ⟨t, ht⟩ := exec_total (decode w) s.nextEdge.release
    have hstep := (step_of_last (pinsNow_rst_of_take hrst) hf).trans ht
    rw [runEdges_succ hstep, runEdges, ← ht]
    simp [State.release, State.nextEdge]
  | succ n ih =>
    rw [runEdges_succ (step_of_waiting (pinsNow_rst_of_take hrst) hf),
      ih (s := s.nextEdge.await w n) rfl (rst_of_mem_take_tail hrst)]
    simp [State.await, State.nextEdge]

/-- Settles O48: the acceptance edge, then the wait, then the completing edge. -/
theorem acceptedCommandCompletesAtomically : Obligations.AcceptedCommandCompletesAtomically := by
  rintro s i hf hr hv rfl hrst
  have haccept := step_of_valid hr hf hv
  have hflight : (s.nextEdge.accept s.pinsNow.cmd).flight =
      some ⟨s.pinsNow.cmd, waitOf (decode s.pinsNow.cmd) s⟩ := by
    rw [State.accept_flight, waitOf_nextEdge]
  refine ⟨fun k hk => ?_, ?_⟩
  · have hrst' : ∀ p ∈ s.pins.tail.take k, p.rst = false := fun p hp =>
      hrst p (List.take_subset_take_left _ (by omega) hp)
    rw [runEdges_succ haccept, runEdges_waiting hflight hk hrst']
    simp [State.accept, State.nextEdge]
  · rw [runEdges_succ haccept, runEdges_completes hflight hrst]
    simp [State.accept, State.nextEdge, ← hf]

/-! ### Whole programs on the pins -/

/-- A command does not read the pins. -/
theorem exec_pins {i : Instr} {s t : State} (h : exec i s = .next t) (ps : List Pins) :
    exec i { s with pins := ps } = .next { t with pins := ps } := by
  cases i with
  | nop => cases h; rfl
  | setShape b =>
    by_cases hb : b = 0xFF#8
    · rw [hb] at h ⊢
      cases h
      rfl
    · rw [exec_setShape_of_ne hb] at h ⊢
      cases h
      rfl
  | setPeriod hi lo => cases h; rfl
  | tick c => cases h; rfl

theorem waitOf_pins (i : Instr) (s : State) (ps : List Pins) : waitOf i { s with pins := ps } = waitOf i s := by
  cases i <;> rfl

theorem commandPins_pins (i : Instr) (s : State) (ps : List Pins) :
    commandPins i { s with pins := ps } = commandPins i s := by
  simp [commandPins, waitOf_pins]

theorem programPins_cons {i : Instr} {s t : State} (h : exec i s = .next t) (is : List Instr) :
    programPins (i :: is) s = commandPins i s ++ programPins is t := by
  simp [programPins, h]

theorem commandPins_append (i : Instr) (s : State) (ps : List Pins) :
    commandPins i s ++ ps = Pins.present (encode i) :: (List.replicate (waitOf i s + 1) Pins.quiet ++ ps) := rfl

theorem programPins_length_cons {i : Instr} {s t : State} (h : exec i s = .next t) (is : List Instr) :
    (programPins (i :: is) s).length = waitOf i s + 2 + (programPins is t).length := by
  simp only [programPins_cons h, commandPins, List.length_append, List.length_cons, List.length_replicate]

/-- An idle block given one command's pins has run it at their end. -/
theorem runEdges_commandPins {i : Instr} {s t : State} (hf : s.flight = none) (h : exec i s = .next t)
    (ps : List Pins) :
    runEdges (waitOf i s + 2) { s with pins := commandPins i s ++ ps } = .next { t with pins := ps } := by
  have hquiet : ∀ p ∈ (List.replicate (waitOf i s + 1) Pins.quiet ++ ps).take (waitOf i s + 1),
      p.rst = false := by
    intro p hp
    rw [List.take_left' List.length_replicate] at hp
    rw [List.eq_of_mem_replicate hp]
    rfl
  obtain ⟨-, hrun⟩ := acceptedCommandCompletesAtomically { s with pins := commandPins i s ++ ps } i hf rfl rfl
    (decode_encode i) (by rw [waitOf_pins]; exact hquiet)
  rw [waitOf_pins] at hrun
  rw [hrun, ← exec_pins h ps, commandPins_append, List.drop_succ_cons,
    List.drop_left' List.length_replicate]

/-- Settles O49: the sequence's pins are its commands' pins in turn. -/
theorem clockedPortRunsCommandsInOrder : Obligations.ClockedPortRunsCommandsInOrder := by
  intro is
  induction is with
  | nil => exact fun s ps _ => rfl
  | cons i is ih =>
    intro s ps hf
    obtain ⟨t, ht⟩ := exec_total i s
    obtain ⟨-, hflight, -⟩ := exec_keeps ht
    rw [programPins_length_cons ht, programPins_cons ht, List.append_assoc,
      runEdges_add (runEdges_commandPins hf ht _), ih t ps (hflight.trans hf),
      runCommands_cons (exec_pins ht ps)]

/-! ### What the host reads -/

/-- What one edge adds to what the host reads: the level, when it becomes an awaited TICK's result. -/
theorem readResults_succ {s t : State} (h : step s = .next t) (k : Nat) (awaited : Bool) :
    readResults (k + 1) awaited s =
      (if !levelIsResult awaited s && levelIsResult (tickAwaited awaited s) t then [t.level] else []) ++
        readResults k (tickAwaited awaited s) t := by
  simp [readResults, h]

/-- An edge that leaves no awaited TICK complete gives the host nothing to read. -/
theorem readResults_silent {s t : State} (h : step s = .next t) (k : Nat) {awaited : Bool}
    (hnone : levelIsResult (tickAwaited awaited s) t = false) :
    readResults (k + 1) awaited s = readResults k (tickAwaited awaited s) t := by
  simp [readResults_succ h, hnone]

/-- While a command is in flight and no reset comes, the host awaits what it awaited. -/
theorem tickAwaited_of_flight {s : State} {f : InFlight} (hr : s.pinsNow.rst = false) (hf : s.flight = some f)
    (awaited : Bool) : tickAwaited awaited s = awaited := by
  simp [tickAwaited, hr, cmdReady_of_flight hf]

theorem pinsNow_rst_of_quiet {s : State} {n : Nat} {ps : List Pins}
    (hpins : s.pins = List.replicate (n + 1) Pins.quiet ++ ps) : s.pinsNow.rst = false := by
  rw [State.pinsNow, hpins]
  rfl

/-- Over a command's wait and its last edge the host reads one level if it awaits a TICK's, else none. -/
theorem readResults_completes {w : CmdWord} {n : Nat} {s t : State} {ps : List Pins} (m : Nat) (awaited : Bool)
    (hf : s.flight = some ⟨w, n⟩) (hpins : s.pins = List.replicate (n + 1) Pins.quiet ++ ps)
    (hps : (ps.headD Pins.quiet).rst = false)
    (ht : exec (decode w) { s with flight := none, pins := ps } = .next t) :
    readResults (n + 1 + m) awaited s = (if awaited then [t.level] else []) ++ readResults m awaited t := by
  induction n generalizing s with
  | zero =>
    have hr := pinsNow_rst_of_quiet hpins
    have hnow : s.nextEdge.release = { s with flight := none, pins := ps } := by
      simp [State.release, State.nextEdge, hpins]
    have hstep := (step_of_last hr hf).trans (hnow ▸ ht)
    obtain ⟨-, hflight, hpins'⟩ := exec_keeps ht
    have hready : t.cmdReady = true := by
      simpa [State.cmdReady, State.pinsNow, hflight, hpins'] using hps
    rw [Nat.zero_add, Nat.add_comm, readResults_succ hstep, tickAwaited_of_flight hr hf]
    cases awaited <;> simp [levelIsResult, hready, cmdReady_of_flight hf]
  | succ n ih =>
    have hr := pinsNow_rst_of_quiet hpins
    rw [Nat.add_right_comm, readResults_silent (step_of_waiting hr hf) _
      (levelIsResult_eq_false (cmdReady_of_flight rfl)), tickAwaited_of_flight hr hf]
    exact ih (s := s.nextEdge.await w n) rfl (by simp [hpins, List.replicate_succ]) ht

theorem tickAwaited_of_valid {s : State} (hr : s.pinsNow.rst = false) (hf : s.flight = none)
    (hv : s.pinsNow.valid = true) (awaited : Bool) : tickAwaited awaited s = isTick (decode s.pinsNow.cmd) := by
  simp [tickAwaited, State.cmdReady, hr, hf, hv]

/-- Over one command's pins the host reads the level the command leaves if it is a TICK, else none, whatever the
host awaited before. -/
theorem readResults_commandPins {i : Instr} {s t : State} {ps : List Pins} (m : Nat) (awaited : Bool)
    (hf : s.flight = none) (hpins : s.pins = commandPins i s ++ ps)
    (ht : exec i { s with pins := ps } = .next t) (hps : (ps.headD Pins.quiet).rst = false) :
    readResults (waitOf i s + 2 + m) awaited s =
      (if isTick i then [t.level] else []) ++ readResults m (isTick i) t := by
  have hnow : s.pinsNow = Pins.present (encode i) := by rw [State.pinsNow, hpins]; rfl
  have hr : s.pinsNow.rst = false := by rw [hnow]; rfl
  have hv : s.pinsNow.valid = true := by rw [hnow]; rfl
  have hdecode : decode s.pinsNow.cmd = i := by rw [hnow]; exact decode_encode i
  have hflight : (s.nextEdge.accept s.pinsNow.cmd).flight = some ⟨s.pinsNow.cmd, waitOf i s⟩ := by
    rw [State.accept_flight, hdecode, waitOf_nextEdge]
  have hwaiting : (s.nextEdge.accept s.pinsNow.cmd).pins =
      List.replicate (waitOf i s + 1) Pins.quiet ++ ps := by
    rw [State.accept_pins, State.nextEdge_pins, hpins]
    rfl
  have hrun : exec (decode s.pinsNow.cmd)
      { s.nextEdge.accept s.pinsNow.cmd with flight := none, pins := ps } = .next t := by
    rw [hdecode, ← ht]
    simp [State.accept, State.nextEdge, hf]
  rw [show waitOf i s + 2 + m = waitOf i s + 1 + m + 1 by omega,
    readResults_silent (step_of_valid hr hf hv) _ (levelIsResult_eq_false (cmdReady_of_flight hflight)),
    tickAwaited_of_valid hr hf hv, hdecode]
  exact readResults_completes m (isTick i) hflight hwaiting hps hrun

theorem programPins_head_rst (is : List Instr) (s : State) :
    ((programPins is s).headD Pins.quiet).rst = false := by
  cases is with
  | nil => rfl
  | cons i is => rfl

theorem tickLevels_cons {i : Instr} {s t : State} (h : exec i s = .next t) (is : List Instr) :
    tickLevels (i :: is) s = (if isTick i then [t.level] else []) ++ tickLevels is t := by
  simp [tickLevels, h]

theorem readResults_programPins (is : List Instr) (awaited : Bool) {s : State} (hf : s.flight = none) :
    readResults (programPins is s).length awaited { s with pins := programPins is s } = tickLevels is s := by
  induction is generalizing awaited s with
  | nil => rfl
  | cons i is ih =>
    obtain ⟨t, ht⟩ := exec_total i s
    obtain ⟨-, hflight, -⟩ := exec_keeps ht
    have hread := readResults_commandPins (s := { s with pins := programPins (i :: is) s })
      (programPins is t).length awaited hf (by rw [commandPins_pins, programPins_cons ht])
      (exec_pins ht _) (programPins_head_rst is t)
    rw [waitOf_pins, ih _ (hflight.trans hf), ← tickLevels_cons ht] at hread
    rw [programPins_length_cons ht, hread]

/-- An idle block to which nothing is presented, no TICK awaited, gives the host nothing to read. -/
theorem readResults_unpresented {k : Nat} {s : State} (hf : s.flight = none)
    (hvalid : ∀ p ∈ s.pins, p.valid = false) : readResults k false s = [] := by
  induction k generalizing s with
  | zero => rfl
  | succ k ih =>
    have hnow : s.pinsNow.valid = false := by
      cases hp : s.pins with
      | nil => simp [State.pinsNow, hp, Pins.quiet]
      | cons p ps => rw [State.pinsNow, hp]; exact hvalid p (by simp [hp])
    have hnone : tickAwaited false s = false := by simp [tickAwaited, hnow]
    have htail : ∀ p ∈ s.pins.tail, p.valid = false := fun p hp => hvalid p (List.mem_of_mem_tail hp)
    have hsilent : ∀ t, levelIsResult (tickAwaited false s) t = false := by simp [hnone, levelIsResult]
    cases hr : s.pinsNow.rst with
    | true =>
      rw [readResults_silent (step_of_rst hr) _ (hsilent _), hnone]
      exact ih (s := s.nextEdge.applyReset) rfl htail
    | false =>
      rw [readResults_silent (step_of_idle hr hf hnow) _ (hsilent _), hnone]
      exact ih (s := s.nextEdge) hf htail

/-- Settles O57: over a program each TICK is read once; after a reset edge no TICK is awaited. -/
theorem hostReadsEachTickResult : Obligations.HostReadsEachTickResult := by
  refine ⟨fun is awaited s hf => readResults_programPins is awaited hf, fun awaited s h => ?_,
    fun k awaited s hr hvalid => ?_⟩
  · apply levelIsResult_eq_false
    rcases h with hf | hr
    · obtain ⟨f, hf⟩ := Option.ne_none_iff_exists'.mp hf
      exact cmdReady_of_flight hf
    · simp [State.cmdReady, hr]
  · cases k with
    | zero => rfl
    | succ k =>
      have hnone : tickAwaited awaited s = false := by simp [tickAwaited, hr]
      rw [readResults_silent (step_of_rst hr) _ (by simp [hnone, levelIsResult]), hnone]
      exact readResults_unpresented rfl hvalid

end Sys2Proof.Machine

/-! SUPPORT. The assembler (30_encoding.md R70, R71): the words of a line, by its well-formedness and its
expansion. -/

namespace Sys2Proof.Machine

/-! ### Canonical words as numbers -/

theorem encode_setShape_eq {b : Nat} (h : b ≤ 255) :
    encode (.setShape (BitVec.ofNat 8 b)) = BitVec.ofNat 34 (2 ^ 32 + b) := by
  apply BitVec.eq_of_toNat_eq
  rw [encode_setShape_toNat, BitVec.toNat_ofNat, BitVec.toNat_ofNat]
  omega

theorem encode_setPeriod_eq {hi lo : Nat} (hhi : hi ≤ 255) (hlo : lo ≤ 255) :
    encode (.setPeriod (BitVec.ofNat 8 hi) (BitVec.ofNat 8 lo)) =
      BitVec.ofNat 34 (2 * 2 ^ 32 + hi * 256 + lo) := by
  apply BitVec.eq_of_toNat_eq
  rw [encode_setPeriod_toNat, BitVec.toNat_ofNat, BitVec.toNat_ofNat, BitVec.toNat_ofNat]
  omega

theorem encode_tick_eq {c : Nat} (h : c ≤ 4294967295) :
    encode (.tick (BitVec.ofNat 32 c)) = BitVec.ofNat 34 (3 * 2 ^ 32 + c) := by
  apply BitVec.eq_of_toNat_eq
  rw [encode_tick_toNat, BitVec.toNat_ofNat, BitVec.toNat_ofNat]
  omega

/-! ### Lines -/

theorem assemble_of_wellFormed {l : Source} (h : l.wellFormed = true) :
    assemble l = some ((expand l).map encode) := by
  simp [assemble, h]

theorem assemble_of_not_wellFormed {l : Source} (h : ¬ l.wellFormed = true) : assemble l = none := by
  simp [assemble, h]

theorem setShape_wellFormed_iff (b : Nat) : (Source.setShape b).wellFormed = true ↔ b ≤ 255 := by
  simp only [Source.wellFormed, fits, decide_eq_true_eq]
  omega

theorem setPeriod_wellFormed_iff (hi lo : Nat) :
    (Source.setPeriod hi lo).wellFormed = true ↔ hi ≤ 255 ∧ lo ≤ 255 := by
  simp only [Source.wellFormed, fits, Bool.and_eq_true, decide_eq_true_eq]
  omega

theorem tick_wellFormed_iff (c : Nat) : (Source.tick c).wellFormed = true ↔ c ≤ 4294967295 := by
  simp only [Source.wellFormed, fits, decide_eq_true_eq]
  omega

theorem setPeriod16_wellFormed_iff (p : Nat) : (Source.setPeriod16 p).wellFormed = true ↔ p ≤ 65535 := by
  simp only [Source.wellFormed, fits, decide_eq_true_eq]
  omega

/-- A FRAME fits when each line of its expansion does. -/
theorem frame_wellFormed_iff (p b c : Nat) :
    (Source.frame p b c).wellFormed = true ↔ (Source.setPeriod16 p).wellFormed = true ∧
      (Source.setShape b).wellFormed = true ∧ (Source.tick c).wellFormed = true := by
  simp [Source.wellFormed, and_assoc]

/-- Settles O50: each line fits or is rejected, and a line that fits is its command's canonical word. -/
theorem assemblerEncodesLines : Obligations.AssemblerEncodesLines := by
  refine ⟨rfl, fun b => ?_, fun hi lo => ?_, fun c => ?_⟩
  · split_ifs with h
    · rw [assemble_of_wellFormed ((setShape_wellFormed_iff b).mpr h), expand, List.map_singleton,
        encode_setShape_eq h]
    · exact assemble_of_not_wellFormed (mt (setShape_wellFormed_iff b).mp h)
  · split_ifs with h
    · rw [assemble_of_wellFormed ((setPeriod_wellFormed_iff hi lo).mpr h), expand, List.map_singleton,
        encode_setPeriod_eq h.1 h.2]
    · exact assemble_of_not_wellFormed (mt (setPeriod_wellFormed_iff hi lo).mp h)
  · split_ifs with h
    · rw [assemble_of_wellFormed ((tick_wellFormed_iff c).mpr h), expand, List.map_singleton, encode_tick_eq h]
    · exact assemble_of_not_wellFormed (mt (tick_wellFormed_iff c).mp h)

/-- A 16-bit period fits exactly when its two bytes do. -/
theorem setPeriod16_wellFormed_eq (p : Nat) :
    (Source.setPeriod16 p).wellFormed = (Source.setPeriod (p / 256) (p % 256)).wellFormed := by
  rw [Bool.eq_iff_iff, setPeriod16_wellFormed_iff, setPeriod_wellFormed_iff]
  omega

/-- A FRAME is its three lines; one that does not fit makes it rejected. -/
theorem assemble_frame (p b c : Nat) :
    assemble (.frame p b c) = (assemble (.setPeriod16 p)).bind fun xs => (assemble (.setShape b)).bind fun ys =>
      (assemble (.tick c)).map fun zs => xs ++ ys ++ zs := by
  by_cases h : (Source.frame p b c).wellFormed = true
  · obtain ⟨hp, hb, hc⟩ := (frame_wellFormed_iff p b c).mp h
    rw [assemble_of_wellFormed h, assemble_of_wellFormed hp, assemble_of_wellFormed hb,
      assemble_of_wellFormed hc]
    rfl
  · rw [assemble_of_not_wellFormed h]
    rw [frame_wellFormed_iff] at h
    by_cases hp : (Source.setPeriod16 p).wellFormed = true
    · by_cases hb : (Source.setShape b).wellFormed = true
      · rw [assemble_of_not_wellFormed (l := .tick c) fun hc => h ⟨hp, hb, hc⟩]
        simp
      · simp [assemble_of_not_wellFormed hb]
    · simp [assemble_of_not_wellFormed hp]

/-- Settles O51: a pseudo-instruction and its expansion fit together and have the same commands. -/
theorem pseudoInstructionsMeanTheirExpansions : Obligations.PseudoInstructionsMeanTheirExpansions := by
  have hreject : ∀ p : Nat, 65535 < p → assemble (.setPeriod16 p) = none := fun p hp =>
    assemble_of_not_wellFormed (mt (setPeriod16_wellFormed_iff p).mp (by omega))
  refine ⟨fun p => ?_, rfl, assemble_frame, fun p hp => ⟨hreject p hp, fun b c => ?_⟩⟩
  · simp only [assemble, setPeriod16_wellFormed_eq]
    rfl
  · rw [assemble_frame, hreject p hp, Option.bind_none]

/-- Settles O52: a line's words are the canonical words of its commands. -/
theorem assembledLinesDecodeBack : Obligations.AssembledLinesDecodeBack := by
  refine fun l hl => ⟨_, assemble_of_wellFormed hl, ?_, ?_⟩
  · simp [Function.comp_def, decode_encode]
  · simp [canonical_encode]

/-! ### Comments -/

theorem stripComment_append (l comment : List Char) :
    stripComment (l ++ ';' :: comment) = stripComment l := by
  induction l with
  | nil => rfl
  | cons c cs ih =>
    by_cases hc : c = ';'
    · simp [stripComment, hc]
    · simpa [stripComment, hc] using ih

/-- Settles O53: a line is read without its comment. -/
theorem commentsHaveNoEffect : Obligations.CommentsHaveNoEffect := by
  intro l comment
  rw [assembleLine, assembleLine, parseLine, parseLine, stripComment_append]

end Sys2Proof.Machine

/-! SUPPORT. The host's commands for a song and the samples it makes of the block's levels
(70_reset_and_hazards.md R160 to R166). -/

namespace Sys2Proof.Machine

/-! ### One channel -/

theorem widenVolume_toNat (v : BitVec 4) : (widenVolume v).toNat = 2 * v.toNat + v.toNat % 2 := by
  decide +revert

/-- Settles O56: the three cases of the flag and the level. -/
theorem channelVolumeFromLevel : Obligations.ChannelVolumeFromLevel := by
  refine ⟨fun level c hc => ⟨_, channelSample_of_disabled hc level, widenVolume_toNat _, rfl⟩,
    fun level c hc => channelSample_of_enabled hc level, fun c hc => ?_⟩
  simp [channelSample, hc]

/-! ### The commands of a song -/

/-- Settles O55: the rate is checked before anything else. -/
theorem hostStopsOnBadSampleRate : Obligations.HostStopsOnBadSampleRate := by
  intro clock rate emulation fs h
  rw [hostProgram, if_pos h]

/-- The commands of a frame with `m` TICKs of `c` cycles. -/
def wholeFrame (m c : Nat) (f : Frame) : List Instr :=
  .setPeriod f.hi f.lo :: .setShape f.b :: List.replicate m (.tick (BitVec.ofNat 32 c))

theorem ticksPerFrame_whole (clock m : Nat) (e : Bool) : ticksPerFrame ⟨clock, m * 50, e⟩ = m := by
  simp [ticksPerFrame]

section
variable {m c : Nat} (hm : 1 ≤ m) (hc : c < 2 ^ 32)
include hm

theorem cyclesOf_whole (e : Bool) (k : Nat) : cyclesOf ⟨c * (m * 50), m * 50, e⟩ k = c := by
  simp [cyclesOf, Nat.mul_div_cancel c (show 0 < m * 50 by omega)]

include hc

theorem tickCommands_whole (k n : Nat) :
    tickCommands ⟨c * (m * 50), m * 50, true⟩ k n = .ok (List.replicate n (.tick (BitVec.ofNat 32 c))) := by
  induction n generalizing k with
  | zero => rfl
  | succ n ih =>
    rw [tickCommands, ih, cyclesOf_whole hm, tickCommand, if_pos hc]
    rfl

theorem songCommands_whole (k : Nat) (fs : List Frame) :
    songCommands ⟨c * (m * 50), m * 50, true⟩ k fs = .ok (fs.flatMap (wholeFrame m c)) := by
  induction fs generalizing k with
  | nil => rfl
  | cons f fs ih =>
    rw [songCommands, ih, frameCommands, ticksPerFrame_whole, tickCommands_whole hm hc]
    rfl

theorem hostProgram_whole (fs : List Frame) :
    hostProgram ⟨c * (m * 50), m * 50, true⟩ fs = .ok (fs.flatMap (wholeFrame m c)) := by
  rw [hostProgram, if_neg (by simp), if_neg (by simp), if_neg (by simp; omega), songCommands_whole hm hc]

end

/-- Settles O54: each frame's commands are `wholeFrame`. -/
theorem hostIssuesFramesInOrder : Obligations.HostIssuesFramesInOrder := by
  rintro clock m c fs hm rfl hc
  exact ⟨hostProgram_whole hm hc fs, by simp [hostProgram]⟩

/-! ### The samples of a song -/

theorem flatMap_replicate_length (m : Nat) (fs : List Frame) :
    (fs.flatMap fun f => List.replicate m f).length = fs.length * m := by
  simp

/-- A frame's TICKs are `m` of its commands. -/
theorem wholeFrame_ticks (m c : Nat) (f : Frame) : ((wholeFrame m c f).filter isTick).length = m := by
  simp [wholeFrame, isTick, List.filter_replicate]

theorem wholeFrames_ticks (m c : Nat) (fs : List Frame) :
    ((fs.flatMap (wholeFrame m c)).filter isTick).length = fs.length * m := by
  induction fs with
  | nil => simp
  | cons f fs ih =>
    rw [List.flatMap_cons, List.filter_append, List.length_append, wholeFrame_ticks, ih, List.length_cons]
    ring

theorem wholeFrame_succ (n c : Nat) (f : Frame) :
    wholeFrame (n + 1) c f = wholeFrame n c f ++ [.tick (BitVec.ofNat 32 c)] := by
  simp [wholeFrame, List.replicate_succ']

/-- A frame's commands are those up to its `n`-th TICK, then the rest of its TICKs. -/
theorem wholeFrame_add (n k c : Nat) (f : Frame) :
    wholeFrame (n + k) c f = wholeFrame n c f ++ List.replicate k (.tick (BitVec.ofNat 32 c)) := by
  simp [wholeFrame]

/-- The commands of a song up to the `j`-th TICK (from 0) of the frame `f` between `fs` and `gs`, and the rest. -/
theorem wholeFrames_split {m j : Nat} (hj : j < m) (c : Nat) (fs gs : List Frame) (f : Frame) :
    ∃ rest, (fs ++ f :: gs).flatMap (wholeFrame m c) =
      (fs.flatMap (wholeFrame m c) ++ wholeFrame j c f) ++ [.tick (BitVec.ofNat 32 c)] ++ rest := by
  obtain ⟨k, rfl⟩ := Nat.exists_eq_add_of_lt hj
  refine ⟨List.replicate k (.tick (BitVec.ofNat 32 c)) ++ gs.flatMap (wholeFrame (j + k + 1) c), ?_⟩
  rw [Nat.add_right_comm j k 1, List.flatMap_append, List.flatMap_cons, wholeFrame_add, wholeFrame_succ]
  simp only [List.append_assoc]

/-- The frame of each output sample. -/
theorem sampleFrame_getElem? {m j : Nat} (hj : j < m) (fs gs : List Frame) (f : Frame) :
    ((fs ++ f :: gs).flatMap fun g => List.replicate m g)[fs.length * m + j]? = some f := by
  rw [List.flatMap_append, List.flatMap_cons, ← flatMap_replicate_length m fs]
  simp [List.getElem?_append, hj]

/-- The level read after a TICK stands behind the levels of the TICKs before it. -/
theorem tickLevels_getElem? {is js : List Instr} {c : Cycles} {s t : State}
    (h : runCommands (is ++ [.tick c]) s = .next t) :
    (tickLevels (is ++ [.tick c] ++ js) s)[(is.filter isTick).length]? = some t.level := by
  obtain ⟨u, hu⟩ := runCommands_total is s
  have hlast : exec (.tick c) u = .next t := by rw [← runCommands_single, ← runCommands_append hu, h]
  rw [tickLevels_append h, tickLevels_append hu, tickLevels_cons hlast, ← tickLevels_length is s]
  simp [isTick]

/-- Settles O58: the sample at a TICK's place pairs the level that TICK leaves with its frame. -/
theorem hostUsesLevelOfEachTick : Obligations.HostUsesLevelOfEachTick := by
  rintro clock m c j ch fs gs f s hm rfl hc hj commands
  obtain ⟨t, ht⟩ := runCommands_total
    (fs.flatMap (wholeFrame m c) ++ wholeFrame j c f ++ [.tick (BitVec.ofNat 32 c)]) s
  obtain ⟨rest, hsplit⟩ := wholeFrames_split hj c fs gs f
  have hlevels := tickLevels_getElem? (js := rest) ht
  rw [← hsplit, List.filter_append, List.length_append, wholeFrames_ticks, wholeFrame_ticks] at hlevels
  refine ⟨t, _, frameSample (some t.level) f, ?_,
    songSamples_of_emulation rfl (hostProgram_whole hm hc (fs ++ f :: gs)) s, ?_, ?_, ?_⟩
  · change runCommands (fs.flatMap (wholeFrame m c) ++ wholeFrame (j + 1) c f) s = .next t
    rw [wholeFrame_succ, ← List.append_assoc, ht]
  · rw [List.length_zipWith, tickLevels_length, wholeFrames_ticks, ticksPerFrame_whole,
      flatMap_replicate_length, Nat.min_self, List.length_append, List.length_cons]
    congr 1
    omega
  · rw [ticksPerFrame_whole]
    exact List.getElem?_zipWith_eq_some.mpr ⟨_, _, hlevels, sampleFrame_getElem? hj fs gs f, rfl⟩
  · rw [frameSample_getElem]
    split_ifs with henabled
    · exact channelSample_of_enabled henabled t.level
    · exact channelSample_of_disabled (Bool.eq_false_iff.mpr henabled) _

end Sys2Proof.Machine

/-! SUPPORT. The constant tables, and the registers after reset (10_state.md R30 to R34; 70_reset_and_hazards.md
R150). -/

namespace Sys2Proof.Machine

/-- Settles O34: the ROM evaluated at every shape and position. -/
theorem shapeRomIsTheWrittenTable : Obligations.ShapeRomIsTheWrittenTable :=
  ⟨by decide, by decide⟩

/-- Settles O35: both bounds evaluated at each of the 31 levels. -/
theorem defaultTableFollowsDecibelLaw : Obligations.DefaultTableFollowsDecibelLaw :=
  ⟨lawful_reset_params, by decide +kernel⟩

/-- Settles O38: the fields of the reset state. -/
theorem resetValues : Obligations.ResetValues :=
  ⟨rfl, rfl, rfl, rfl, rfl, rfl, by decide, rfl, rfl, rfl⟩

end Sys2Proof.Machine
